-- ==== Sys2Proof/Word.lean ====
section
/-! DEFINITION. The word types of the core (00_scope.md R7, R9, R11) and nothing else: every value is an unsigned
number, bit 0 is the least significant bit, and `++` puts its left operand in the high bits (R9). -/

namespace Sys2Proof

/-- An 8-bit byte: a memory cell, a general register, a timer, an immediate `kk` (R7, R11). -/
abbrev Byte := BitVec 8

/-- A 16-bit word: an instruction word, `I`, `PC`, a return-stack entry (R7). -/
abbrev Word := BitVec 16

/-- A 4-bit field: a register number `x` or `y`, a sprite height `n`, a key index (R11, R21, R31). -/
abbrev Nibble := BitVec 4

/-- A 12-bit address: the field `nnn`, and an address of the 4096-byte memory, 0x000 to 0xFFF (R11, R50). -/
abbrev Addr := BitVec 12

end Sys2Proof
end

