-- ==== Sys2Proof/Syntax.lean ====
section
/-! DEFINITION. The 35 instructions, one constructor per row of spec/opcode_table.json in the table's order, with the
operand fields of their form (30_encoding.md R82, R83, R84). -/

namespace Sys2Proof

/-- An instruction of the core. `x`, `y` are register numbers, `n` a sprite height, `kk` a byte, `nnn` an address. -/
inductive Instr where
  /-- 00E0 (R190). -/
  | cls
  /-- 00EE (R122). -/
  | ret
  /-- 0NNN but 00E0 and 00EE (R121). -/
  | sys (nnn : Addr)
  /-- 1NNN (R123). -/
  | jp (nnn : Addr)
  /-- 2NNN (R124). -/
  | call (nnn : Addr)
  /-- 3XNN (R125). -/
  | seByte (x : Nibble) (kk : Byte)
  /-- 4XNN (R126). -/
  | sneByte (x : Nibble) (kk : Byte)
  /-- 5XY0 (R127). -/
  | seReg (x y : Nibble)
  /-- 6XNN (R141). -/
  | ldByte (x : Nibble) (kk : Byte)
  /-- 7XNN (R142). -/
  | addByte (x : Nibble) (kk : Byte)
  /-- 8XY0 (R143). -/
  | ldReg (x y : Nibble)
  /-- 8XY1 (R144). -/
  | orReg (x y : Nibble)
  /-- 8XY2 (R145). -/
  | andReg (x y : Nibble)
  /-- 8XY3 (R146). -/
  | xorReg (x y : Nibble)
  /-- 8XY4 (R147). -/
  | addReg (x y : Nibble)
  /-- 8XY5 (R148). -/
  | subReg (x y : Nibble)
  /-- 8XY6 (R149); `y` is decoded and not used (R86). -/
  | shr (x y : Nibble)
  /-- 8XY7 (R150). -/
  | subnReg (x y : Nibble)
  /-- 8XYE (R151); `y` is decoded and not used (R86). -/
  | shl (x y : Nibble)
  /-- 9XY0 (R128). -/
  | sneReg (x y : Nibble)
  /-- ANNN (R160). -/
  | ldI (nnn : Addr)
  /-- BNNN (R129). -/
  | jpV0 (nnn : Addr)
  /-- CXNN (R180). -/
  | rnd (x : Nibble) (kk : Byte)
  /-- DXYN (R191). -/
  | drw (x y n : Nibble)
  /-- EX9E (R192). -/
  | skp (x : Nibble)
  /-- EXA1 (R193). -/
  | sknp (x : Nibble)
  /-- FX07 (R181). -/
  | ldVxDt (x : Nibble)
  /-- FX0A (R194). -/
  | ldVxK (x : Nibble)
  /-- FX15 (R182). -/
  | ldDtVx (x : Nibble)
  /-- FX18 (R183). -/
  | ldStVx (x : Nibble)
  /-- FX1E (R161). -/
  | addI (x : Nibble)
  /-- FX29 (R162). -/
  | ldF (x : Nibble)
  /-- FX33 (R163). -/
  | ldB (x : Nibble)
  /-- FX55 (R164). -/
  | storeRegs (x : Nibble)
  /-- FX65 (R165). -/
  | loadRegs (x : Nibble)
  deriving DecidableEq, Repr

end Sys2Proof
end

