-- ==== Sys2Proof/Decode.lean ====
section
/-! DEFINITION. Decoding an instruction word (30_encoding.md R80 to R91, 40_step_cycle.md R103) and encoding one. The
bit patterns are the table's; many are general knowledge in the spec itself (UNVERIFIED, log entry 13, unsafe). -/

namespace Sys2Proof

/-- Why bytes are no instruction. -/
inductive Reject where
  /-- No rule of R84 to R89 decodes the word (R90). -/
  | unknownOpcode (w : Word)
  /-- Fewer than the two bytes every instruction has (R80). -/
  | truncated
  deriving DecidableEq, Repr

/-- `op = w[15:12]` (R11, R81). -/
def fieldOp (w : Word) : Nibble := w.extractLsb' 12 4
/-- `x = w[11:8]` (R11, R81). -/
def fieldX (w : Word) : Nibble := w.extractLsb' 8 4
/-- `y = w[7:4]` (R11, R81). -/
def fieldY (w : Word) : Nibble := w.extractLsb' 4 4
/-- `n = w[3:0]` (R11, R81). -/
def fieldN (w : Word) : Nibble := w.extractLsb' 0 4
/-- `kk = w[7:0]` (R11, R81). -/
def fieldKk (w : Word) : Byte := w.extractLsb' 0 8
/-- `nnn = w[11:0]` (R11, R81). -/
def fieldNnn (w : Word) : Addr := w.extractLsb' 0 12

/-- Family 0x0, in the priority order CLS, RET, SYS (R85). -/
def decodeFamily0 (w : Word) : Instr :=
  if w = 0x00E0#16 then .cls else if w = 0x00EE#16 then .ret else .sys (fieldNnn w)

/-- Family 0x8, by `n` (R86). -/
def decodeFamily8 (w : Word) : Except Reject Instr :=
  match (fieldN w).toNat with
  | 0x0 => .ok (.ldReg (fieldX w) (fieldY w))
  | 0x1 => .ok (.orReg (fieldX w) (fieldY w))
  | 0x2 => .ok (.andReg (fieldX w) (fieldY w))
  | 0x3 => .ok (.xorReg (fieldX w) (fieldY w))
  | 0x4 => .ok (.addReg (fieldX w) (fieldY w))
  | 0x5 => .ok (.subReg (fieldX w) (fieldY w))
  | 0x6 => .ok (.shr (fieldX w) (fieldY w))
  | 0x7 => .ok (.subnReg (fieldX w) (fieldY w))
  | 0xE => .ok (.shl (fieldX w) (fieldY w))
  | _ => .error (.unknownOpcode w)

/-- Family 0xE, by the low byte (R87). -/
def decodeFamilyE (w : Word) : Except Reject Instr :=
  match (fieldKk w).toNat with
  | 0x9E => .ok (.skp (fieldX w))
  | 0xA1 => .ok (.sknp (fieldX w))
  | _ => .error (.unknownOpcode w)

/-- Family 0xF, by the low byte (R88). -/
def decodeFamilyF (w : Word) : Except Reject Instr :=
  match (fieldKk w).toNat with
  | 0x07 => .ok (.ldVxDt (fieldX w))
  | 0x0A => .ok (.ldVxK (fieldX w))
  | 0x15 => .ok (.ldDtVx (fieldX w))
  | 0x18 => .ok (.ldStVx (fieldX w))
  | 0x1E => .ok (.addI (fieldX w))
  | 0x29 => .ok (.ldF (fieldX w))
  | 0x33 => .ok (.ldB (fieldX w))
  | 0x55 => .ok (.storeRegs (fieldX w))
  | 0x65 => .ok (.loadRegs (fieldX w))
  | _ => .error (.unknownOpcode w)

/-- `decode(w)` (R103): selects by `op`, then by the secondary field of the four families (C2); opcodes 0x5 and 0x9
require `n = 0` (R89). A word no rule decodes is rejected as the spec's `Unknown` (R90). -/
def decode (w : Word) : Except Reject Instr :=
  match (fieldOp w).toNat with
  | 0x0 => .ok (decodeFamily0 w)
  | 0x1 => .ok (.jp (fieldNnn w))
  | 0x2 => .ok (.call (fieldNnn w))
  | 0x3 => .ok (.seByte (fieldX w) (fieldKk w))
  | 0x4 => .ok (.sneByte (fieldX w) (fieldKk w))
  | 0x5 => if fieldN w = 0#4 then .ok (.seReg (fieldX w) (fieldY w)) else .error (.unknownOpcode w)
  | 0x6 => .ok (.ldByte (fieldX w) (fieldKk w))
  | 0x7 => .ok (.addByte (fieldX w) (fieldKk w))
  | 0x8 => decodeFamily8 w
  | 0x9 => if fieldN w = 0#4 then .ok (.sneReg (fieldX w) (fieldY w)) else .error (.unknownOpcode w)
  | 0xA => .ok (.ldI (fieldNnn w))
  | 0xB => .ok (.jpV0 (fieldNnn w))
  | 0xC => .ok (.rnd (fieldX w) (fieldKk w))
  | 0xD => .ok (.drw (fieldX w) (fieldY w) (fieldN w))
  | 0xE => decodeFamilyE w
  | _ => decodeFamilyF w

/-- The word of two bytes in memory order: big-endian, the first byte in bits 15:8 (20_memory.md R51, R102). -/
def wordOfBytes (first second : Byte) : Word := first ++ second

/-- The byte at the lower address of a word (R51). -/
def firstByte (w : Word) : Byte := w.extractLsb' 8 8
/-- The byte at the higher address of a word (R51). -/
def secondByte (w : Word) : Byte := w.extractLsb' 0 8

/-- Decoding from a list of bytes in memory order: the instruction and the bytes after it. Every instruction is two
bytes long (R80, R91). -/
def decodeBytes : List Byte → Except Reject (Instr × List Byte)
  | first :: second :: rest =>
    match decode (wordOfBytes first second) with
    | .ok i => .ok (i, rest)
    | .error r => .error r
  | _ => .error .truncated

/-- The word of an instruction, field by field from bit 15 down (R82, R84 to R88). -/
def encode : Instr → Word
  | .cls => 0x00E0#16
  | .ret => 0x00EE#16
  | .sys nnn => 0x0#4 ++ nnn
  | .jp nnn => 0x1#4 ++ nnn
  | .call nnn => 0x2#4 ++ nnn
  | .seByte x kk => 0x3#4 ++ x ++ kk
  | .sneByte x kk => 0x4#4 ++ x ++ kk
  | .seReg x y => 0x5#4 ++ x ++ y ++ 0x0#4
  | .ldByte x kk => 0x6#4 ++ x ++ kk
  | .addByte x kk => 0x7#4 ++ x ++ kk
  | .ldReg x y => 0x8#4 ++ x ++ y ++ 0x0#4
  | .orReg x y => 0x8#4 ++ x ++ y ++ 0x1#4
  | .andReg x y => 0x8#4 ++ x ++ y ++ 0x2#4
  | .xorReg x y => 0x8#4 ++ x ++ y ++ 0x3#4
  | .addReg x y => 0x8#4 ++ x ++ y ++ 0x4#4
  | .subReg x y => 0x8#4 ++ x ++ y ++ 0x5#4
  | .shr x y => 0x8#4 ++ x ++ y ++ 0x6#4
  | .subnReg x y => 0x8#4 ++ x ++ y ++ 0x7#4
  | .shl x y => 0x8#4 ++ x ++ y ++ 0xE#4
  | .sneReg x y => 0x9#4 ++ x ++ y ++ 0x0#4
  | .ldI nnn => 0xA#4 ++ nnn
  | .jpV0 nnn => 0xB#4 ++ nnn
  | .rnd x kk => 0xC#4 ++ x ++ kk
  | .drw x y n => 0xD#4 ++ x ++ y ++ n
  | .skp x => 0xE#4 ++ x ++ 0x9E#8
  | .sknp x => 0xE#4 ++ x ++ 0xA1#8
  | .ldVxDt x => 0xF#4 ++ x ++ 0x07#8
  | .ldVxK x => 0xF#4 ++ x ++ 0x0A#8
  | .ldDtVx x => 0xF#4 ++ x ++ 0x15#8
  | .ldStVx x => 0xF#4 ++ x ++ 0x18#8
  | .addI x => 0xF#4 ++ x ++ 0x1E#8
  | .ldF x => 0xF#4 ++ x ++ 0x29#8
  | .ldB x => 0xF#4 ++ x ++ 0x33#8
  | .storeRegs x => 0xF#4 ++ x ++ 0x55#8
  | .loadRegs x => 0xF#4 ++ x ++ 0x65#8

/-- The bytes of an instruction in memory order (R51). -/
def encodeBytes (i : Instr) : List Byte := [firstByte (encode i), secondByte (encode i)]

/-- A row of spec/opcode_table.json: a word matches it when `w & mask = value` (R103). -/
structure Row where
  mnemonic : String
  value : Word
  mask : Word
  deriving DecidableEq, Repr

/-- The match rule of R103. -/
def Row.fits (r : Row) (w : Word) : Bool := w &&& r.mask == r.value

/-- spec/opcode_table.json, rows 1 to 18, in its order. -/
def tableLow : List Row :=
  [⟨"CLS", 0x00E0#16, 0xFFFF#16⟩, ⟨"RET", 0x00EE#16, 0xFFFF#16⟩, ⟨"SYS_nnn", 0x0000#16, 0xF000#16⟩, ⟨"JP_nnn", 0x1000#16, 0xF000#16⟩,
   ⟨"CALL_nnn", 0x2000#16, 0xF000#16⟩, ⟨"SE_Vx__kk", 0x3000#16, 0xF000#16⟩, ⟨"SNE_Vx__kk", 0x4000#16, 0xF000#16⟩,
   ⟨"SE_Vx__Vy", 0x5000#16, 0xF00F#16⟩, ⟨"LD_Vx__kk", 0x6000#16, 0xF000#16⟩, ⟨"ADD_Vx__kk", 0x7000#16, 0xF000#16⟩,
   ⟨"LD_Vx__Vy", 0x8000#16, 0xF00F#16⟩, ⟨"OR_Vx__Vy", 0x8001#16, 0xF00F#16⟩, ⟨"AND_Vx__Vy", 0x8002#16, 0xF00F#16⟩,
   ⟨"XOR_Vx__Vy", 0x8003#16, 0xF00F#16⟩, ⟨"ADD_Vx__Vy", 0x8004#16, 0xF00F#16⟩, ⟨"SUB_Vx__Vy", 0x8005#16, 0xF00F#16⟩,
   ⟨"SHR_Vx", 0x8006#16, 0xF00F#16⟩, ⟨"SUBN_Vx__Vy", 0x8007#16, 0xF00F#16⟩]

/-- spec/opcode_table.json, rows 19 to 35, in its order. -/
def tableHigh : List Row :=
  [⟨"SHL_Vx", 0x800E#16, 0xF00F#16⟩, ⟨"SNE_Vx__Vy", 0x9000#16, 0xF00F#16⟩, ⟨"LD_I__nnn", 0xA000#16, 0xF000#16⟩,
   ⟨"JP_V0__nnn", 0xB000#16, 0xF000#16⟩, ⟨"RND_Vx__kk", 0xC000#16, 0xF000#16⟩, ⟨"DRW_Vx__Vy__n", 0xD000#16, 0xF000#16⟩,
   ⟨"SKP_Vx", 0xE09E#16, 0xF0FF#16⟩, ⟨"SKNP_Vx", 0xE0A1#16, 0xF0FF#16⟩, ⟨"LD_Vx__DT", 0xF007#16, 0xF0FF#16⟩,
   ⟨"LD_Vx__K", 0xF00A#16, 0xF0FF#16⟩, ⟨"LD_DT__Vx", 0xF015#16, 0xF0FF#16⟩, ⟨"LD_ST__Vx", 0xF018#16, 0xF0FF#16⟩,
   ⟨"ADD_I__Vx", 0xF01E#16, 0xF0FF#16⟩, ⟨"LD_F__Vx", 0xF029#16, 0xF0FF#16⟩, ⟨"LD_B__Vx", 0xF033#16, 0xF0FF#16⟩,
   ⟨"LD__I___Vx", 0xF055#16, 0xF0FF#16⟩, ⟨"LD_Vx___I", 0xF065#16, 0xF0FF#16⟩]

/-- spec/opcode_table.json: the 35 rows in its order, which tries CLS and RET before SYS (R103). -/
def opcodeTable : List Row := tableLow ++ tableHigh

/-- The mnemonic of an instruction's row in spec/opcode_table.json. -/
def Instr.mnemonic : Instr → String
  | .cls => "CLS" | .ret => "RET" | .sys _ => "SYS_nnn" | .jp _ => "JP_nnn" | .call _ => "CALL_nnn"
  | .seByte _ _ => "SE_Vx__kk" | .sneByte _ _ => "SNE_Vx__kk" | .seReg _ _ => "SE_Vx__Vy"
  | .ldByte _ _ => "LD_Vx__kk" | .addByte _ _ => "ADD_Vx__kk"
  | .ldReg _ _ => "LD_Vx__Vy" | .orReg _ _ => "OR_Vx__Vy" | .andReg _ _ => "AND_Vx__Vy"
  | .xorReg _ _ => "XOR_Vx__Vy" | .addReg _ _ => "ADD_Vx__Vy" | .subReg _ _ => "SUB_Vx__Vy"
  | .shr _ _ => "SHR_Vx" | .subnReg _ _ => "SUBN_Vx__Vy" | .shl _ _ => "SHL_Vx" | .sneReg _ _ => "SNE_Vx__Vy"
  | .ldI _ => "LD_I__nnn" | .jpV0 _ => "JP_V0__nnn" | .rnd _ _ => "RND_Vx__kk" | .drw _ _ _ => "DRW_Vx__Vy__n"
  | .skp _ => "SKP_Vx" | .sknp _ => "SKNP_Vx"
  | .ldVxDt _ => "LD_Vx__DT" | .ldVxK _ => "LD_Vx__K" | .ldDtVx _ => "LD_DT__Vx" | .ldStVx _ => "LD_ST__Vx"
  | .addI _ => "ADD_I__Vx" | .ldF _ => "LD_F__Vx" | .ldB _ => "LD_B__Vx"
  | .storeRegs _ => "LD__I___Vx" | .loadRegs _ => "LD_Vx___I"

/-- The word the host means by `w` under `nbits` table bits: every bit of the instruction above `nbits` is 0. An
instruction is one 16-bit word (R80), so bit numbers of the table are bit numbers of the word. -/
def tableWord (nbits w : Nat) : Word := BitVec.ofNat 16 (w % 2 ^ nbits)

/-- The instruction this decoder reads from a word of the opcode table, its bytes laid out as memory holds them. -/
def decodeTableWord (nbits w : Nat) : Option Instr :=
  match decodeBytes [firstByte (tableWord nbits w), secondByte (tableWord nbits w)] with
  | .ok (i, _) => some i
  | .error _ => none

end Sys2Proof
end

