-- ==== Sys2Proof/Config.lean ====
section
/-! DEFINITION. The fixed parameters of the core (00_scope.md R7), the parameters the spec leaves open with their
defaults (R8), and the one free value, the random byte. -/

namespace Sys2Proof

/-- `FONT_BASE` (R8, decision D4): 0x050 or 0x000. -/
inductive FontBase where
  | at050
  | at000
  deriving DecidableEq, Repr

/-- The address a `FONT_BASE` setting stands for. -/
def FontBase.addr : FontBase → Nat
  | .at050 => 0x050
  | .at000 => 0x000

/-- `FLAG_ORDER` (R8, R140, decision D6): which of result and flag an 8XYn with a flag writes last. -/
inductive FlagOrder where
  | flagLast
  | flagFirst
  deriving DecidableEq, Repr

/-- `DATA_OOB` (R8, R56, decision D3): what a data access above 0xFFF does. -/
inductive DataOob where
  | skip
  | wrap
  deriving DecidableEq, Repr

/-- The parameters of R8 that "a model takes as an argument" (all but `RNG`, which is `Config.randomByte` below).
DESIGN CHOICE (log entry 1), safe: they stand in a field of `State` that no operation changes, so that a statement
about every state is a statement about every setting. -/
structure Params where
  fontBase : FontBase
  fontData : Vector Byte 80
  flagOrder : FlagOrder
  dataOob : DataOob
  deriving DecidableEq, Repr

namespace Config

/-- `PROGRAM_BASE` (R7): the entry point, the load address, and where an out-of-bounds PC is recovered to. The other
fixed parameters of R7 are in the types (`MEM_SIZE`, `NUM_V`, `I_WIDTH`, `PC_WIDTH`, `STACK_DEPTH`, `TIMER_WIDTH`,
`FB_WIDTH`, `FB_HEIGHT`, `NUM_KEYS`) or stand as the number where they are used (`MAX_PROGRAM` 3584, `TIMER_PERIOD_MS`
16, `GLYPH_BYTES` 5). -/
def programBase : Word := 0x200#16

/-- The default glyph bytes, one glyph a line from 0 to F (10_state.md R38). UNVERIFIED (log entry 2), unsafe: the spec
takes them from general knowledge (decision D5). -/
def glyphs : List (List Byte) :=
  [[0xF0, 0x90, 0x90, 0x90, 0xF0],
   [0x20, 0x60, 0x20, 0x20, 0x70],
   [0xF0, 0x10, 0xF0, 0x80, 0xF0],
   [0xF0, 0x10, 0xF0, 0x10, 0xF0],
   [0x90, 0x90, 0xF0, 0x10, 0x10],
   [0xF0, 0x80, 0xF0, 0x10, 0xF0],
   [0xF0, 0x80, 0xF0, 0x90, 0xF0],
   [0xF0, 0x10, 0x20, 0x40, 0x40]] ++
  [[0xF0, 0x90, 0xF0, 0x90, 0xF0],
   [0xF0, 0x90, 0xF0, 0x10, 0xF0],
   [0xF0, 0x90, 0xF0, 0x90, 0x90],
   [0xE0, 0x90, 0xE0, 0x90, 0xE0],
   [0xF0, 0x80, 0x80, 0x80, 0xF0],
   [0xE0, 0x90, 0x90, 0x90, 0xE0],
   [0xF0, 0x80, 0xF0, 0x80, 0xF0],
   [0xF0, 0x80, 0xF0, 0x80, 0x80]]

/-- The default `FONT_DATA` (R8, R38). -/
def fontData : Vector Byte 80 := ⟨glyphs.flatten.toArray, by decide⟩

/-- The random source of CXNN (R8 `RNG`, 44_timers_random.md R180, decision D27): the byte of the `n`th draw. A FREE
VALUE (log entry 3): it has no body, so a claim holds for every byte; the instruction applies it to
`State.draws`, a fresh number at each execution. -/
opaque randomByte : Nat → Byte

end Config

/-- The default setting of every parameter (R8). -/
def Params.specDefault : Params :=
  { fontBase := .at050, fontData := Config.fontData, flagOrder := .flagLast, dataOob := .skip }

end Sys2Proof
end

