-- ==== Sys2Proof/Machine/State.lean ====
section
/-! DEFINITION. The machine's state (10_state.md R20 to R39), the diagnostics a run records (60_exceptions.md R211,
R213), why a step can stop, and the state after reset. -/

namespace Sys2Proof.Machine

/-- The diagnostics of R211 with the information each records. -/
inductive Diagnostic where
  /-- Code 1, raised by a step whose word decodes to nothing (R105). -/
  | unknownOpcode (w pc : Word)
  /-- Code 2, raised by 2NNN with a full stack (R124). -/
  | stackOverflow (pc : Word)
  /-- Code 3, raised by 00EE with an empty stack (R122). -/
  | stackUnderflow (pc : Word)
  /-- Code 4, raised by a step whose PC is above 0xFFE (R101). -/
  | programCounterOutOfBounds (pc : Word)
  /-- Code 5, raised by `loadProgram` of more than 3584 bytes (R251). -/
  | capacityExceeded (length : Nat)
  /-- Code 6, raised by FX33, FX55, FX65 and DXYN under `DATA_OOB = skip` (R56, R166). -/
  | memoryAccessOutOfBounds (pc : Word) (addr : Nat)
  deriving DecidableEq, Repr

/-- The memory: the bytes that differ from what an unlisted address reads as (`Memory.background`), by rising address. -/
abbrev Memory := List Host.Cell

/-- The framebuffer, a 64 x 32 one-bit grid (R29): row `cy` is entry `cy`, column `cx` is bit `cx` of it, so cell
`fb[cy * 64 + cx]` of R29 is bit `cx` of entry `cy` (log entry 15). -/
abbrev Framebuffer := Vector (BitVec 64) 32

/-- The state record of R20, and three fields of the model's own (`params`, `draws`, `diags`). -/
structure State where
  /-- V0 to VF (R21, R22). -/
  v : Vector Byte 16
  /-- The index register I (R25). -/
  i : Word
  /-- The program counter (R23, R24). -/
  pc : Word
  /-- The return-address stack (R26). -/
  stack : Vector Word 16
  /-- SP, the number of stack entries in use, 0 to 16 (R26). -/
  sp : Fin 17
  /-- The delay timer DT (R27). -/
  dt : Byte
  /-- The sound timer ST (R28). -/
  st : Byte
  /-- The 4096 bytes of memory (R50). -/
  mem : Memory
  /-- The framebuffer (R29). -/
  fb : Framebuffer
  /-- The redraw flag (R30). -/
  redraw : Bool
  /-- The key-down flags, true for down (R31). -/
  key : Vector Bool 16
  /-- Whether the core is suspended in FX0A (R33). -/
  awaitingKey : Bool
  /-- The size of the last loaded program, absent before one (R34). -/
  loadedSize : Option (Fin 3585)
  /-- Milliseconds accumulated towards the next timer decrement (R35). -/
  tickAcc : Fin 16
  /-- MODEL'S OWN (log entry 1): the parameters of R8. -/
  params : Params
  /-- MODEL'S OWN (log entry 3): how many random bytes CXNN has drawn. -/
  draws : Nat
  /-- MODEL'S OWN (log entry 4): the append-only diagnostic log of R213, oldest first. -/
  diags : List Diagnostic
  deriving DecidableEq, Repr

/-- Why a step stops the machine: for no reason. "The core has no traps, exception vectors or handlers. Every error
condition is locally recoverable" (R210), so no case exists, nothing raises one, and no step can stop by a fault
(log entry 11, safe). -/
inductive Fault where
  deriving DecidableEq, Repr

/-- Why the model gives no next state. -/
inductive Refusal where
  /-- Raised by `exec`'s arm of an instruction that has no meaning yet: by none, every arm has its meaning. Safe. -/
  | notModelled (mnemonic : String)
  /-- Raised by `Chip.operate` for an operation other than `reset` on a core that was never reset, which "has no meaning
  and is refused" (R40). No step of a `State` raises it. Safe: nothing is claimed of an unreset core. -/
  | neverReset
  deriving DecidableEq, Repr

/-- The machine right after reset (R39, R250), the parameters at the defaults of R8. -/
def State.reset : State where
  v := Vector.replicate 16 0#8
  i := 0#16
  pc := 0x200#16
  stack := Vector.replicate 16 0#16
  sp := 0
  dt := 0#8
  st := 0#8
  mem := []
  fb := Vector.replicate 32 0#64
  redraw := false
  key := Vector.replicate 16 false
  awaitingKey := false
  loadedSize := none
  tickAcc := 0
  params := Params.specDefault
  draws := 0
  diags := []

end Sys2Proof.Machine
end

