-- ==== Sys2Proof/Machine/Ops.lean ====
section
/-! DEFINITION. The named operations over the state: registers, memory, the return stack, the framebuffer, fetching a
word, moving PC at the end of a step, and taking a diagnostic with its recovery. -/

namespace Sys2Proof.Machine

/-! ## Memory (20_memory.md) -/

/-- What an address reads as while memory lists nothing for it: its value after reset, the glyph bytes at `FONT_BASE`
to `FONT_BASE + 79` and 0 elsewhere (R39, R250; the zeros are decision D16, log entry 6). -/
def Memory.background (p : Params) (a : Addr) : Byte :=
  if h : p.fontBase.addr ≤ a.toNat ∧ a.toNat < p.fontBase.addr + 80 then
    p.fontData[a.toNat - p.fontBase.addr]
  else 0#8

/-- The byte the list holds for an address, if it lists one. -/
def Memory.find : Memory → Nat → Option Byte
  | [], _ => none
  | (k, b) :: m, a => if k = a then some b else Memory.find m a

/-- Lists a byte for an address, keeping the addresses rising. -/
def Memory.insert (a : Nat) (b : Byte) : Memory → Memory
  | [] => [(a, b)]
  | (k, c) :: m =>
    if a < k then (a, b) :: (k, c) :: m
    else if a = k then (a, b) :: m
    else (k, c) :: Memory.insert a b m

/-- Lists nothing for an address. -/
def Memory.erase (a : Nat) : Memory → Memory
  | [] => []
  | (k, c) :: m => if k = a then Memory.erase a m else (k, c) :: Memory.erase a m

/-- One byte of memory (R50, R53). -/
def Memory.read (p : Params) (m : Memory) (a : Addr) : Byte :=
  (Memory.find m a.toNat).getD (Memory.background p a)

/-- Memory with one byte written (R50, R53, R58), in the canonical form of `Memory.wf`. -/
def Memory.write (p : Params) (m : Memory) (a : Addr) (b : Byte) : Memory :=
  if b = Memory.background p a then Memory.erase a.toNat m else Memory.insert a.toNat b m

/-- The canonical form: addresses of the 4096-byte memory, strictly rising, and no byte that an unlisted address would
read as. Equal memories are then equal lists. -/
abbrev Memory.wf (p : Params) (m : Memory) : Prop :=
  (m.map Prod.fst).Pairwise (· < ·) ∧
    ∀ c ∈ m, c.1 < 4096 ∧ c.2 ≠ Memory.background p (BitVec.ofNat 12 c.1)

/-- `MemRead(a, 1)` (R10). -/
def State.readByte (s : State) (a : Addr) : Byte := Memory.read s.params s.mem a

/-- `MemWrite(a, 1, b)` (R10). -/
def State.writeByte (s : State) (a : Addr) (b : Byte) : State :=
  { s with mem := Memory.write s.params s.mem a b }

/-- Whether a fetch may start at PC: both its bytes are in memory (R101). -/
def State.fetchable (s : State) : Bool := decide (s.pc.toNat ≤ 0xFFE)

/-- `MemRead(PC, 2)`: the big-endian word at PC and PC + 1 (R51, R102), for a PC a fetch may start at. -/
def State.fetchWord (s : State) : Word :=
  wordOfBytes (s.readByte (BitVec.ofNat 12 s.pc.toNat)) (s.readByte (BitVec.ofNat 12 (s.pc.toNat + 1)))

/-- The word's two bytes stored where the next fetch reads them. -/
def State.storeWordAtPc (s : State) (w : Word) : State :=
  (s.writeByte (BitVec.ofNat 12 s.pc.toNat) (firstByte w)).writeByte (BitVec.ofNat 12 (s.pc.toNat + 1)) (secondByte w)

/-! ## Registers (10_state.md) -/

/-- `V[x]` (R10, R21). -/
def State.getV (s : State) (x : Nibble) : Byte := s.v[x.toNat]'x.isLt

/-- `V[x] <- b` (R10, R21). -/
def State.setV (s : State) (x : Nibble) (b : Byte) : State := { s with v := s.v.set x.toNat b x.isLt }

/-- `I <- w` (R10, R25). -/
def State.setI (s : State) (w : Word) : State := { s with i := w }

/-- `DT <- b` (R27). -/
def State.setDt (s : State) (b : Byte) : State := { s with dt := b }

/-- `ST <- b` (R28). -/
def State.setSt (s : State) (b : Byte) : State := { s with st := b }

/-- One random byte has been drawn (R180). -/
def State.countDraw (s : State) : State := { s with draws := s.draws + 1 }

/-- `key[k]` (R31). -/
def State.keyDown (s : State) (k : Nibble) : Bool := s.key[k.toNat]'k.isLt

/-! ## The return stack (R26) -/

/-- A push: writes `stack[SP]`, then increments SP; `none` when the stack is full. -/
def State.push (s : State) (a : Word) : Option State :=
  if h : s.sp.val < 16 then
    some { s with stack := s.stack.set s.sp.val a h, sp := ⟨s.sp.val + 1, by omega⟩ }
  else none

/-- A pop: decrements SP, then reads `stack[SP]`, which keeps its value (decision D24); `none` when the stack is
empty. -/
def State.pop (s : State) : Option (Word × State) :=
  if h : 0 < s.sp.val then
    some (s.stack[s.sp.val - 1]'(by omega), { s with sp := ⟨s.sp.val - 1, by omega⟩ })
  else none

/-! ## The framebuffer (R29) -/

/-- The cell at a column and row, both taken modulo the size (R29, R191). -/
def Framebuffer.pixel (fb : Framebuffer) (cx cy : Nat) : Bool :=
  (fb[cy % 32]'(Nat.mod_lt _ (by decide))).getLsbD (cx % 64)

/-- Cell `fb[j]` of R29, 0 ≤ j < 2048: `j = cy * 64 + cx`. -/
def Framebuffer.cell (fb : Framebuffer) (j : Nat) : Bool := Framebuffer.pixel fb (j % 64) (j / 64)

/-- The cell at a column and row, both taken modulo the size, exclusive-ored with 1 (R191). -/
def Framebuffer.flip (fb : Framebuffer) (cx cy : Nat) : Framebuffer :=
  fb.set (cy % 32)
    ((fb[cy % 32]'(Nat.mod_lt _ (by decide))) ^^^ BitVec.twoPow 64 (cx % 64)) (Nat.mod_lt _ (by decide))

/-- All 2048 cells 0 (R190). -/
def Framebuffer.blank : Framebuffer := Vector.replicate 32 0#64

/-- A new framebuffer with the redraw flag raised (R30, R190, R191). -/
def State.showFrame (s : State) (fb : Framebuffer) : State := { s with fb := fb, redraw := true }

/-! ## The end of a step (40_step_cycle.md R100, R104, R106) -/

/-- What `execute` returns: how PC moves (R100). -/
inductive Next where
  | advance
  | skip
  | jump (target : Word)
  | suspend
  deriving DecidableEq, Repr

/-- The PC an instruction at `pc` leaves (R104). -/
def Next.pcFrom (pc : Word) : Next → Word
  | .advance => pc + 2#16
  | .skip => pc + 4#16
  | .jump target => target
  | .suspend => pc

/-- The end of every step: PC moves (R104) and `awaitingKey` says whether the instruction suspended (R33, R106). -/
def State.retire (s : State) (n : Next) : State :=
  { s with pc := n.pcFrom s.pc, awaitingKey := n == .suspend }

/-! ## Diagnostics and their recovery (60_exceptions.md R210 to R217) -/

/-- The code this spec gives a diagnostic (R211). -/
def Diagnostic.code : Diagnostic → Nat
  | .unknownOpcode _ _ => 1
  | .stackOverflow _ => 2
  | .stackUnderflow _ => 3
  | .programCounterOutOfBounds _ => 4
  | .capacityExceeded _ => 5
  | .memoryAccessOutOfBounds _ _ => 6

/-- `raise E(info)`: appends the record to the diagnostic output (R10, R213). -/
def State.raise (s : State) (d : Diagnostic) : State := { s with diags := s.diags ++ [d] }

/-- Taking a diagnostic in a step, the one error event of the core: it is recorded, nothing else is written (R212), and
the step ends with the recovery's move of PC (R211). There is no return from it (R217). -/
def State.recover (s : State) (d : Diagnostic) (n : Next) : State := (s.raise d).retire n

/-- A step at a PC no fetch may start at (R101): nothing is fetched or executed, PC goes to the entry point. -/
def State.recoverPc (s : State) : State :=
  s.recover (.programCounterOutOfBounds s.pc) (.jump Config.programBase)

/-- A step whose word decodes to nothing (R105): no effect, PC + 2. -/
def State.recoverUnknown (s : State) (w : Word) : State := s.recover (.unknownOpcode w s.pc) .advance

end Sys2Proof.Machine
end

