-- ==== Sys2Proof/Machine/Operands.lean ====
section
/-! DEFINITION. The operand forms: immediates (30_encoding.md R83), the low nibble of a register, glyph addresses
(43_index_memory.md R162) and data addresses through I with their range check (R166, 20_memory.md R56). Register
operands are `State.getV` and `State.setV`. -/

namespace Sys2Proof.Machine

/-- `zext_16(nnn)` (R83). -/
def addrOperand (nnn : Addr) : Word := nnn.setWidth 16

/-- `zext_16(b)` of a register or timer byte (R10). -/
def byteOperand (b : Byte) : Word := b.setWidth 16

/-- `b & 0xF`: the glyph or key index in a register (R162, R192, R193; decisions D10, D11). -/
def lowNibble (b : Byte) : Nibble := b.setWidth 4

/-- The address of a glyph: `FONT_BASE + 5 * d` (R37, R162). -/
def glyphAddr (p : Params) (d : Nibble) : Word := BitVec.ofNat 16 (p.fontBase.addr + 5 * d.toNat)

/-- `ea(k) = I + k`, "computed as an unbounded natural (not truncated)" (R166). -/
def State.ea (s : State) (k : Nat) : Nat := s.i.toNat + k

/-- `addr(k)` (R166): `ea(k) mod 4096` under `DATA_OOB = wrap`. Under `skip` it is `ea(k)`, at most 0xFFF once the range
check has passed, which is the same number. -/
def State.dataAddr (s : State) (k : Nat) : Addr := BitVec.ofNat 12 (s.ea k)

/-- `inRange(0, c)` (R166): whether the `c` bytes at I may be accessed. -/
def State.inRange (s : State) (c : Nat) : Bool :=
  s.params.dataOob == .wrap || c == 0 || decide (s.ea (c - 1) ≤ 0xFFF)

/-- `firstOut(0, c)` (R166): the least `ea(k)`, `0 <= k < c`, above 0xFFF; `none` where there is none. -/
def State.firstOut (s : State) (c : Nat) : Option Nat :=
  ((List.range c).map s.ea).find? fun a => decide (0xFFF < a)

/-- The check FX33, FX55, FX65 and DXYN make before any write (R56, R166): where the `c` bytes at I may not all be
accessed, MemoryAccessOutOfBounds with the first such address, no effect and PC + 2; else `body`, then PC + 2. -/
def State.checkData (s : State) (c : Nat) (body : State) : State :=
  if s.inRange c then body.retire .advance
  else s.recover (.memoryAccessOutOfBounds s.pc ((s.firstOut c).getD (s.ea 0))) .advance

end Sys2Proof.Machine
end

