-- ==== Sys2Proof/Machine/Flags.lean ====
section
/-! DEFINITION. The flag computations of 42_alu.md (R147 to R152) and the write of a result with its flag (R140). -/

namespace Sys2Proof.Machine

/-- A flag as the byte VF receives: 1 or 0 (R22, R140). -/
def flagByte (f : Bool) : Byte := if f then 1#8 else 0#8

/-- The carry of 8XY4: the untruncated sum exceeds 255 (R147). -/
def carryOut (a b : Byte) : Bool := decide (255 < a.toNat + b.toNat)

/-- The no-borrow flag of `a - b`: 1 when `a >= b` (R148, R150, R152). -/
def noBorrow (a b : Byte) : Bool := decide (b.toNat ≤ a.toNat)

/-- The bit a right shift by one shifts out: bit 0 (R149). -/
def bitOutRight (a : Byte) : Bool := a.getLsbD 0

/-- The bit a left shift by one shifts out: bit 7 (R151). -/
def bitOutLeft (a : Byte) : Bool := a.getLsbD 7

/-- `setRF(x, r, f)` (R140): the result to Vx and the flag to VF, in the order `FLAG_ORDER` says, which shows only
where `x` is F. -/
def State.setRF (s : State) (x : Nibble) (r : Byte) (f : Bool) : State :=
  match s.params.flagOrder with
  | .flagLast => (s.setV x r).setV 0xF#4 (flagByte f)
  | .flagFirst => (s.setV 0xF#4 (flagByte f)).setV x r

end Sys2Proof.Machine
end

