-- ==== Sys2Proof/Machine/Alu.lean ====
section
/-! DEFINITION. Register loads and the 8-bit ALU (42_alu.md): 6XNN, 7XNN, 8XY0 to 8XY7, 8XYE. -/

namespace Sys2Proof.Machine

/-- The end of an instruction whose one result goes to Vx (R141 to R146). -/
def State.finishV (s : State) (x : Nibble) (r : Byte) : State := (s.setV x r).retire .advance

/-- The end of an instruction with a result and a flag (R140, R147 to R151). -/
def State.finishRF (s : State) (x : Nibble) (r : Byte) (f : Bool) : State := (s.setRF x r f).retire .advance

/-- 6XNN (R141). -/
def execLdByte (x : Nibble) (kk : Byte) (s : State) : Host.Outcome State Fault Refusal :=
  .next (s.finishV x kk)

/-- 7XNN (R142): modulo 256, no flag (D8). -/
def execAddByte (x : Nibble) (kk : Byte) (s : State) : Host.Outcome State Fault Refusal :=
  .next (s.finishV x (s.getV x + kk))

/-- 8XY0 (R143). -/
def execLdReg (x y : Nibble) (s : State) : Host.Outcome State Fault Refusal :=
  .next (s.finishV x (s.getV y))

/-- 8XY1 (R144): no flag (D7). -/
def execOrReg (x y : Nibble) (s : State) : Host.Outcome State Fault Refusal :=
  .next (s.finishV x (s.getV x ||| s.getV y))

/-- 8XY2 (R145): no flag (D7). -/
def execAndReg (x y : Nibble) (s : State) : Host.Outcome State Fault Refusal :=
  .next (s.finishV x (s.getV x &&& s.getV y))

/-- 8XY3 (R146): no flag (D7). -/
def execXorReg (x y : Nibble) (s : State) : Host.Outcome State Fault Refusal :=
  .next (s.finishV x (s.getV x ^^^ s.getV y))

/-- 8XY4 (R147). -/
def execAddReg (x y : Nibble) (s : State) : Host.Outcome State Fault Refusal :=
  .next (s.finishRF x (s.getV x + s.getV y) (carryOut (s.getV x) (s.getV y)))

/-- 8XY5 (R148). -/
def execSubReg (x y : Nibble) (s : State) : Host.Outcome State Fault Refusal :=
  .next (s.finishRF x (s.getV x - s.getV y) (noBorrow (s.getV x) (s.getV y)))

/-- 8XY6 (R149): shifts Vx; `y` is not read. -/
def execShr (x _y : Nibble) (s : State) : Host.Outcome State Fault Refusal :=
  .next (s.finishRF x (s.getV x >>> 1) (bitOutRight (s.getV x)))

/-- 8XY7 (R150). -/
def execSubnReg (x y : Nibble) (s : State) : Host.Outcome State Fault Refusal :=
  .next (s.finishRF x (s.getV y - s.getV x) (noBorrow (s.getV y) (s.getV x)))

/-- 8XYE (R151): shifts Vx; `y` is not read. -/
def execShl (x _y : Nibble) (s : State) : Host.Outcome State Fault Refusal :=
  .next (s.finishRF x (s.getV x <<< 1) (bitOutLeft (s.getV x)))

end Sys2Proof.Machine
end

