-- ==== Sys2Proof/Machine/ControlFlow.lean ====
section
/-! DEFINITION. Control flow (41_control_flow.md): 0NNN, 00EE, 1NNN, 2NNN, 3XNN, 4XNN, 5XY0, 9XY0, BNNN. -/

namespace Sys2Proof.Machine

/-- The end of a skip instruction: PC + 4 where its condition holds, PC + 2 where not (R104). -/
def State.skipIf (s : State) (c : Bool) : State := s.retire (if c then .skip else .advance)

/-- 00EE (R122): the popped entry to PC; with an empty stack StackUnderflow, no effect (D23), PC + 2. -/
def execRet (s : State) : Host.Outcome State Fault Refusal :=
  match s.pop with
  | some (target, s') => .next (s'.retire (.jump target))
  | none => .next (s.recover (.stackUnderflow s.pc) .advance)

/-- 0NNN (R121): a no-op; `nnn` is not used (D12). -/
def execSys (_nnn : Addr) (s : State) : Host.Outcome State Fault Refusal :=
  .next (s.retire .advance)

/-- 1NNN (R123). -/
def execJp (nnn : Addr) (s : State) : Host.Outcome State Fault Refusal :=
  .next (s.retire (.jump (addrOperand nnn)))

/-- 2NNN (R124): pushes PC + 2 and jumps; with a full stack StackOverflow, no effect (D23), PC + 2. -/
def execCall (nnn : Addr) (s : State) : Host.Outcome State Fault Refusal :=
  match s.push (s.pc + 2#16) with
  | some s' => .next (s'.retire (.jump (addrOperand nnn)))
  | none => .next (s.recover (.stackOverflow s.pc) .advance)

/-- 3XNN (R125). -/
def execSeByte (x : Nibble) (kk : Byte) (s : State) : Host.Outcome State Fault Refusal :=
  .next (s.skipIf (s.getV x == kk))

/-- 4XNN (R126). -/
def execSneByte (x : Nibble) (kk : Byte) (s : State) : Host.Outcome State Fault Refusal :=
  .next (s.skipIf (s.getV x != kk))

/-- 5XY0 (R127). -/
def execSeReg (x y : Nibble) (s : State) : Host.Outcome State Fault Refusal :=
  .next (s.skipIf (s.getV x == s.getV y))

/-- 9XY0 (R128). -/
def execSneReg (x y : Nibble) (s : State) : Host.Outcome State Fault Refusal :=
  .next (s.skipIf (s.getV x != s.getV y))

/-- BNNN (R129): `nnn + V0`, a 16-bit sum that is not masked to 12 bits. -/
def execJpV0 (nnn : Addr) (s : State) : Host.Outcome State Fault Refusal :=
  .next (s.retire (.jump (addrOperand nnn + byteOperand (s.getV 0#4))))

end Sys2Proof.Machine
end

