-- ==== Sys2Proof/Machine/DisplayKeys.lean ====
section
/-! DEFINITION. Display and keyboard instructions (45_display_keys.md): 00E0, DXYN, EX9E, EXA1, FX0A. -/

namespace Sys2Proof.Machine

/-- 00E0 (R190): every cell 0, the redraw flag raised, VF unchanged. -/
def execCls (s : State) : Host.Outcome State Fault Refusal :=
  .next ((s.showFrame Framebuffer.blank).retire .advance)

/-- What the loops of DXYN carry: the framebuffer and whether a lit pixel has been cleared (R191). -/
structure Canvas where
  fb : Framebuffer
  collision : Bool
  deriving DecidableEq, Repr

/-- One set sprite bit at a column and row (R191): the collision is noted, then the cell is exclusive-ored with 1. -/
def Canvas.plot (cv : Canvas) (cx cy : Nat) : Canvas :=
  { fb := Framebuffer.flip cv.fb cx cy, collision := cv.collision || Framebuffer.pixel cv.fb cx cy }

/-- The first `c` columns of a sprite row `b` drawn from column `cx` (R191): bit 7 is the leftmost pixel (D15). -/
def Canvas.drawColumns (cv : Canvas) (b : Byte) (cx cy : Nat) : Nat → Canvas
  | 0 => cv
  | c + 1 =>
    let before := cv.drawColumns b cx cy c
    if b.getLsbD (7 - c) then before.plot (cx + c) cy else before

/-- The first `r` rows of the sprite at I drawn from column `cx` and row `cy`, top to bottom, on the state's own
framebuffer (R191). -/
def State.drawRows (s : State) (cx cy : Nat) : Nat → Canvas
  | 0 => { fb := s.fb, collision := false }
  | r + 1 => (s.drawRows cx cy r).drawColumns (s.readByte (s.dataAddr r)) cx (cy + r) 8

/-- A finished draw (R191): the pixels, VF the collision flag, the redraw flag raised even if no pixel changed. -/
def State.drawn (s : State) (cv : Canvas) : State :=
  (s.showFrame cv.fb).setV 0xF#4 (flagByte cv.collision)

/-- DXYN (R191): both coordinates are read before VF is written; under `DATA_OOB = skip` a row above 0xFFF draws
nothing (D38). -/
def execDrw (x y n : Nibble) (s : State) : Host.Outcome State Fault Refusal :=
  .next (s.checkData n.toNat (s.drawn (s.drawRows (s.getV x).toNat (s.getV y).toNat n.toNat)))

/-- EX9E (R192): the key of Vx's low nibble (D11). -/
def execSkp (x : Nibble) (s : State) : Host.Outcome State Fault Refusal :=
  .next (s.retire (if s.keyDown (lowNibble (s.getV x)) then .skip else .advance))

/-- EXA1 (R193): the key of Vx's low nibble (D11). -/
def execSknp (x : Nibble) (s : State) : Host.Outcome State Fault Refusal :=
  .next (s.retire (if s.keyDown (lowNibble (s.getV x)) then .advance else .skip))

/-- The lowest key index that is down, scanning 0x0 to 0xF upwards (R194). -/
def State.lowestKeyDown (s : State) : Option Nibble :=
  ((List.range 16).map fun k => BitVec.ofNat 4 k).find? s.keyDown

/-- FX0A (R194): the lowest key down to Vx; with none down the step suspends, PC stays and the key state is not written
(C5, D25). -/
def execLdVxK (x : Nibble) (s : State) : Host.Outcome State Fault Refusal :=
  match s.lowestKeyDown with
  | some k => .next ((s.setV x (k.setWidth 8)).retire .advance)
  | none => .next (s.retire .suspend)

end Sys2Proof.Machine
end

