-- ==== Sys2Proof/Machine/IndexMemory.lean ====
section
/-! DEFINITION. Index register and memory instructions (43_index_memory.md): ANNN, FX1E, FX29, FX33, FX55, FX65. -/

namespace Sys2Proof.Machine

/-- The end of an instruction whose one result goes to I (R160 to R162). -/
def State.finishI (s : State) (w : Word) : State := (s.setI w).retire .advance

/-- ANNN (R160). -/
def execLdI (nnn : Addr) (s : State) : Host.Outcome State Fault Refusal :=
  .next (s.finishI (addrOperand nnn))

/-- FX1E (R161): modulo 65536, no flag (D9). -/
def execAddI (x : Nibble) (s : State) : Host.Outcome State Fault Refusal :=
  .next (s.finishI (s.i + byteOperand (s.getV x)))

/-- FX29 (R162): the address of the glyph of Vx's low nibble (D10). -/
def execLdF (x : Nibble) (s : State) : Host.Outcome State Fault Refusal :=
  .next (s.finishI (glyphAddr s.params (lowNibble (s.getV x))))

/-- The three digit stores of FX33: hundreds, tens, units at offsets 0, 1, 2 (R163). -/
def State.storeDigits (s : State) (b : Byte) : State :=
  ((s.writeByte (s.dataAddr 0) (BitVec.ofNat 8 (b.toNat / 100))).writeByte
    (s.dataAddr 1) (BitVec.ofNat 8 (b.toNat / 10 % 10))).writeByte
    (s.dataAddr 2) (BitVec.ofNat 8 (b.toNat % 10))

/-- FX33 (R163). -/
def execLdB (x : Nibble) (s : State) : Host.Outcome State Fault Refusal :=
  .next (s.checkData 3 (s.storeDigits (s.getV x)))

/-- The first `c` stores of FX55, in ascending order: `V[k]` to `addr(k)` for `k < c` (R164). -/
def State.storeBlock (s : State) : Nat → State
  | 0 => s
  | c + 1 => (s.storeBlock c).writeByte (s.dataAddr c) (s.getV (BitVec.ofNat 4 c))

/-- FX55 (R164): V0 to Vx inclusive; I is kept. -/
def execStoreRegs (x : Nibble) (s : State) : Host.Outcome State Fault Refusal :=
  .next (s.checkData (x.toNat + 1) (s.storeBlock (x.toNat + 1)))

/-- The first `c` loads of FX65, in ascending order: the byte at `addr(k)` to `V[k]` for `k < c` (R165). -/
def State.loadBlock (s : State) : Nat → State
  | 0 => s
  | c + 1 => (s.loadBlock c).setV (BitVec.ofNat 4 c) (s.readByte (s.dataAddr c))

/-- FX65 (R165): V0 to Vx inclusive; I is kept. -/
def execLoadRegs (x : Nibble) (s : State) : Host.Outcome State Fault Refusal :=
  .next (s.checkData (x.toNat + 1) (s.loadBlock (x.toNat + 1)))

end Sys2Proof.Machine
end

