-- ==== Sys2Proof/Machine/TimersRandom.lean ====
section
/-! DEFINITION. Random byte and timer access (44_timers_random.md): CXNN, FX07, FX15, FX18. -/

namespace Sys2Proof.Machine

/-- CXNN with the drawn byte given (R180): Vx gets it under the mask; one draw has been made. -/
def State.randomResult (s : State) (x : Nibble) (kk drawn : Byte) : State :=
  ((s.setV x (drawn &&& kk)).countDraw).retire .advance

/-- CXNN (R180): the drawn byte is the FREE VALUE `Config.randomByte` of this draw (log entry 3). -/
def execRnd (x : Nibble) (kk : Byte) (s : State) : Host.Outcome State Fault Refusal :=
  .next (s.randomResult x kk (Config.randomByte s.draws))

/-- FX07 (R181). -/
def execLdVxDt (x : Nibble) (s : State) : Host.Outcome State Fault Refusal :=
  .next ((s.setV x s.dt).retire .advance)

/-- FX15 (R182): `tickAcc` is not changed (D32). -/
def execLdDtVx (x : Nibble) (s : State) : Host.Outcome State Fault Refusal :=
  .next ((s.setDt (s.getV x)).retire .advance)

/-- FX18 (R183): `tickAcc` is not changed (D32). -/
def execLdStVx (x : Nibble) (s : State) : Host.Outcome State Fault Refusal :=
  .next ((s.setSt (s.getV x)).retire .advance)

end Sys2Proof.Machine
end

