-- ==== Sys2Proof/Machine/Step.lean ====
section
/-! DEFINITION. One step of the core (40_step_cycle.md R100), and the placing of a word where the next step fetches. -/

namespace Sys2Proof.Machine

/-- `step()` (R100), its checks in the order of R214: the PC bound (R101), decode (R105), the instruction. -/
def step (s : State) : Host.Outcome State Fault Refusal :=
  if s.fetchable then
    match decode s.fetchWord with
    | .ok i => exec i s
    | .error _ => .next (s.recoverUnknown s.fetchWord)
  else .next s.recoverPc

/-- The state with a word of the opcode table stored where the next fetch reads it (log entries 7, 16). A state whose
PC no fetch may start at has its next fetch at the entry point (R101), so PC is first put there. -/
def State.withFetchWord (s : State) (nbits w : Nat) : State :=
  if s.fetchable then s.storeWordAtPc (tableWord nbits w)
  else State.storeWordAtPc { s with pc := Config.programBase } (tableWord nbits w)

end Sys2Proof.Machine
end

