-- ==== Sys2Proof/Machine/Operations.lean ====
section
/-! DEFINITION. The operations of the core other than `step`, the host events (60_exceptions.md R220 to R234,
70_reset_and_hazards.md R250 to R253), the step's result (40_step_cycle.md R106), and runs of any interleaving of them
(R222, log entry 8). -/

namespace Sys2Proof.Machine

/-- `reset()` (R250): every piece of the spec's state at its value of R39. The parameters, the draw counter and the
diagnostic log are not that state and stay: reset removes no record already emitted (R213; log entry 17). -/
def State.resetOp (s : State) : State :=
  { State.reset with params := s.params, draws := s.draws, diags := s.diags }

/-- One `tick()` (R221): each nonzero timer is decremented, a zero timer stays. -/
def State.tick (s : State) : State :=
  { s with dt := if s.dt = 0#8 then 0#8 else s.dt - 1#8, st := if s.st = 0#8 then 0#8 else s.st - 1#8 }

/-- `k` ticks (R220). -/
def State.ticks (s : State) : Nat → State
  | 0 => s
  | k + 1 => (s.ticks k).tick

/-- `tickTimers(elapsedMs)` (R220): one tick for every whole 16 ms since the previous decrement, the rest kept. -/
def State.tickTimers (s : State) (elapsedMs : Nat) : State :=
  let total := s.tickAcc.val + elapsedMs
  State.ticks { s with tickAcc := ⟨total % 16, Nat.mod_lt _ (by decide)⟩ } (total / 16)

/-- The bytes of a program copied into memory from an address up (R252). -/
def State.copyBytes (s : State) (at_ : Nat) : List Byte → State
  | [] => s
  | b :: rest => (s.writeByte (BitVec.ofNat 12 at_) b).copyBytes (at_ + 1) rest

/-- The state `loadProgram(bytes)` leaves: over 3584 bytes only the record CapacityExceeded (R251), else a reset core
with the bytes at 0x200 and their number recorded (R252). -/
def State.loadProgram (s : State) (bytes : List Byte) : State :=
  if h : bytes.length ≤ 3584 then
    { s.resetOp.copyBytes 0x200 bytes with loadedSize := some ⟨bytes.length, Nat.lt_succ_of_le h⟩ }
  else s.raise (.capacityExceeded bytes.length)

/-- The host's key write (R233). -/
def State.writeKey (s : State) (k : Nibble) (down : Bool) : State := { s with key := s.key.set k.toNat down k.isLt }

/-- The host's redraw acknowledge (R231). -/
def State.ackRedraw (s : State) : State := { s with redraw := false }

/-- The sound-active output (R232): a function of ST. -/
def State.soundActive (s : State) : Bool := s.st != 0#8

/-- The host's framebuffer read (R230): cell `fb[j]`, 0 ≤ j < 2048. It changes nothing. -/
def State.readCell (s : State) (j : Nat) : Bool := Framebuffer.cell s.fb j

/-- What a step reports to the host (R106). -/
inductive StepResult where
  | completed
  | suspended
  | recovered
  deriving DecidableEq, Repr

/-- The result of a step from `s` to `t` (R100, R106): Suspended if it suspended, Recovered if it raised a diagnostic,
Completed otherwise (log entry 5). -/
def stepResult (s t : State) : StepResult :=
  if t.awaitingKey then .suspended
  else if s.diags.length < t.diags.length then .recovered
  else .completed

/-- What the host may do to a core (R234). Reads change nothing and are functions of the state. -/
inductive Op where
  | reset
  | loadProgram (bytes : List Byte)
  | step
  | tickTimers (elapsedMs : Nat)
  | writeKey (k : Nibble) (down : Bool)
  | ackRedraw
  deriving DecidableEq, Repr

/-- What an operation returns to the host (R234). -/
inductive OpResult where
  | nothing
  | loaded
  | capacityExceeded
  | stepped (r : StepResult)
  deriving DecidableEq, Repr

/-- The outcome of an operation whose next state is known, with its result. -/
def stepped (s : State) : Host.Outcome State Fault Refusal → Host.Outcome (State × OpResult) Fault Refusal
  | .next t => .next (t, .stepped (stepResult s t))
  | .fault r => .fault r
  | .refused r => .refused r

/-- One operation or host event on a core that has been reset, atomic (R12): its next state and its result. -/
def State.operate (s : State) : Op → Host.Outcome (State × OpResult) Fault Refusal
  | .reset => .next (s.resetOp, .nothing)
  | .loadProgram bytes =>
    .next (s.loadProgram bytes, if bytes.length ≤ 3584 then .loaded else .capacityExceeded)
  | .step => stepped s (step s)
  | .tickTimers elapsedMs => .next (s.tickTimers elapsedMs, .nothing)
  | .writeKey k down => .next (s.writeKey k down, .nothing)
  | .ackRedraw => .next (s.ackRedraw, .nothing)

/-- A core in its life (R40): constructed with its parameters and never reset, or running. -/
inductive Chip where
  | fresh (p : Params)
  | running (s : State)
  deriving DecidableEq, Repr

/-- One operation on a core at any point of its life: before the first `reset` every other operation is refused
(R40, R253). -/
def Chip.operate : Chip → Op → Host.Outcome (State × OpResult) Fault Refusal
  | .fresh p, .reset => .next ({ State.reset with params := p }, .nothing)
  | .fresh _, .loadProgram _ => .refused .neverReset
  | .fresh _, .step => .refused .neverReset
  | .fresh _, .tickTimers _ => .refused .neverReset
  | .fresh _, .writeKey _ _ => .refused .neverReset
  | .fresh _, .ackRedraw => .refused .neverReset
  | .running s, op => s.operate op

/-- A run: operations and host events one after another, in any order the host chooses (R58, R222). -/
def State.run (s : State) : List Op → Host.Outcome State Fault Refusal
  | [] => .next s
  | op :: rest =>
    match s.operate op with
    | .next (t, _) => t.run rest
    | .fault r => .fault r
    | .refused r => .refused r

end Sys2Proof.Machine
end

