-- ==== Sys2Proof/Safety.lean ====
section
/-! DEFINITION. The terms claims use: the invariant of the core, and what an instruction may change (the access summary
of 10_state.md R41, made exact for the state the instruction meets). -/

namespace Sys2Proof.Machine

/-- What holds of every state of a core: memory is in its canonical form; PC "never exceeds 0x10FE" (R24); no stack
entry exceeds 0x1000, so that a return keeps the bound on PC (R24, R124). The other ranges of R20 are in the types. -/
def State.Inv (s : State) : Prop :=
  Memory.wf s.params s.mem ∧ s.pc.toNat ≤ 0x10FE ∧ ∀ k : Fin 16, (s.stack[k]).toNat ≤ 0x1000

/-- A piece of state an instruction may write. PC and `awaitingKey`, which every step writes, are not among them. -/
inductive Part where
  | reg (x : Nibble)
  | index
  | stackEntry (k : Nat)
  | sp
  | dt
  | st
  | byte (a : Addr)
  | fb
  | redraw
  | draws
  | diags
  deriving DecidableEq, Repr

/-- `t` differs from `s` in nothing but the listed parts, PC and `awaitingKey`. The key state, `loadedSize`, `tickAcc`
and the parameters are written by no instruction (R31, R34, R35, R41). -/
def OnlyChanges (parts : List Part) (s t : State) : Prop :=
  (∀ x, .reg x ∉ parts → t.getV x = s.getV x) ∧
  (.index ∉ parts → t.i = s.i) ∧
  (∀ k : Fin 16, .stackEntry k.val ∉ parts → t.stack[k] = s.stack[k]) ∧
  (.sp ∉ parts → t.sp = s.sp) ∧
  (.dt ∉ parts → t.dt = s.dt) ∧
  (.st ∉ parts → t.st = s.st) ∧
  (∀ a, .byte a ∉ parts → t.readByte a = s.readByte a) ∧
  (.fb ∉ parts → t.fb = s.fb) ∧
  (.redraw ∉ parts → t.redraw = s.redraw) ∧
  (.draws ∉ parts → t.draws = s.draws) ∧
  (.diags ∉ parts → t.diags = s.diags) ∧
  t.key = s.key ∧ t.loadedSize = s.loadedSize ∧ t.tickAcc = s.tickAcc ∧ t.params = s.params

/-- The bytes of the `c` data addresses at I (R166). -/
def dataBytes (s : State) (c : Nat) : List Part := (List.range c).map fun k => .byte (s.dataAddr k)

/-- The registers V0 to V(c - 1). -/
def firstRegs (c : Nat) : List Part := (List.range c).map fun k => .reg (BitVec.ofNat 4 k)

/-- What an instruction may write in a state beside PC and `awaitingKey`, by the rules of files 41 to 45. Where it takes
its diagnostic, that is the diagnostic log alone (R212). -/
def writesOf (i : Instr) (s : State) : List Part :=
  match i with
  | .cls => [.fb, .redraw]
  | .ret => if s.sp.val = 0 then [.diags] else [.sp]
  | .call _ => if s.sp.val = 16 then [.diags] else [.stackEntry s.sp.val, .sp]
  | .sys _ | .jp _ | .jpV0 _ => []
  | .seByte _ _ | .sneByte _ _ | .seReg _ _ | .sneReg _ _ | .skp _ | .sknp _ => []
  | .ldByte x _ | .addByte x _ | .ldReg x _ | .orReg x _ | .andReg x _ | .xorReg x _ | .ldVxDt x => [.reg x]
  | .addReg x _ | .subReg x _ | .shr x _ | .subnReg x _ | .shl x _ => [.reg x, .reg 0xF#4]
  | .ldI _ | .addI _ | .ldF _ => [.index]
  | .rnd x _ => [.reg x, .draws]
  | .drw _ _ n => if s.inRange n.toNat then [.fb, .redraw, .reg 0xF#4] else [.diags]
  | .ldVxK x => if s.key = Vector.replicate 16 false then [] else [.reg x]
  | .ldDtVx _ => [.dt]
  | .ldStVx _ => [.st]
  | .ldB _ => if s.inRange 3 then dataBytes s 3 else [.diags]
  | .storeRegs x => if s.inRange (x.toNat + 1) then dataBytes s (x.toNat + 1) else [.diags]
  | .loadRegs x => if s.inRange (x.toNat + 1) then firstRegs (x.toNat + 1) else [.diags]

/-- What a step may write in a state beside PC and `awaitingKey`: what its decoded instruction may; the diagnostic log
where nothing is executed (R101, R105, R212). -/
def stepWrites (s : State) : List Part :=
  if s.pc.toNat ≤ 0xFFE then
    match decode s.fetchWord with
    | .ok i => writesOf i s
    | .error _ => [.diags]
  else [.diags]

/-- The instruction of a step takes its range diagnostic (R56, R166): it records MemoryAccessOutOfBounds with PC and the
least address above 0xFFF at I, changes nothing else (R212), and PC advances by 2. -/
def ReportsOutOfRange (i : Instr) (s : State) : Prop :=
  ∃ t, exec i s = .next t ∧ t.pc = s.pc + 2#16 ∧
    t.diags = s.diags ++ [.memoryAccessOutOfBounds s.pc (max s.i.toNat 0x1000)] ∧ OnlyChanges [.diags] s t

/-- Whether the `c` bytes at I may be accessed, in the words of R56: under `wrap` always, under `skip` when the last
address is at most 0xFFF. -/
def MayAccess (s : State) (c : Nat) : Prop := s.params.dataOob = .wrap ∨ c = 0 ∨ s.i.toNat + (c - 1) ≤ 0xFFF

/-- The result `r` and the flag `f` of an 8XYn stand where `setRF(x, r, f)` puts them (R140): for `x` other than F in Vx
and VF; for `x` = F the one written last, by `FLAG_ORDER`, stands in VF. -/
def ResultAndFlag (s t : State) (x : Nibble) (r f : Nat) : Prop :=
  (x ≠ 0xF#4 → (t.getV x).toNat = r ∧ (t.getV 0xF#4).toNat = f) ∧
  (x = 0xF#4 → s.params.flagOrder = .flagLast → (t.getV 0xF#4).toNat = f) ∧
  (x = 0xF#4 → s.params.flagOrder = .flagFirst → (t.getV 0xF#4).toNat = r)

/-- A set bit of the `n`-row sprite at I, drawn from column `cx` and row `cy`, falls on the cell at column `px` and row
`py`: bit 7 of a row is its leftmost pixel and both axes wrap for each pixel (R191). -/
def SpriteCovers (s : State) (cx cy n px py : Nat) : Prop :=
  ∃ r < n, ∃ c < 8, (s.readByte (s.dataAddr r)).getLsbD (7 - c) = true ∧
    (cx + c) % 64 = px ∧ (cy + r) % 32 = py

/-- The word after the instruction, as the state `t` after it fetches it, holds what `c` stores at I put there: the byte at
PC + 2 in bits 15:8 and the byte at PC + 3 in bits 7:0 are `value k` where store `k` reached them, and as they were where
none did (R61). -/
def FetchesStored (s t : State) (c : Nat) (value : Nat → Nat) : Prop :=
  (∀ k < c, (s.dataAddr k).toNat = s.pc.toNat + 2 → (firstByte t.fetchWord).toNat = value k) ∧
  (∀ k < c, (s.dataAddr k).toNat = s.pc.toNat + 3 → (secondByte t.fetchWord).toNat = value k) ∧
  ((∀ k < c, (s.dataAddr k).toNat ≠ s.pc.toNat + 2) →
    firstByte t.fetchWord = s.readByte (BitVec.ofNat 12 (s.pc.toNat + 2))) ∧
  ((∀ k < c, (s.dataAddr k).toNat ≠ s.pc.toNat + 3) →
    secondByte t.fetchWord = s.readByte (BitVec.ofNat 12 (s.pc.toNat + 3)))

end Sys2Proof.Machine
end

