-- ==== Sys2Proof/Certificates/Slice0/Obligations.lean ====
section
/-! DEFINITION. What is claimed of the core, for the provers: each statement from the rules of spec/ its docstring
names. Where a clause rests on a decision D<n> of 92_eei_decisions.md (the spec's own choice, not its source's), the
docstring names it. Where a clause gives a word's bits, most rows of the spec's encoding are general knowledge by its own
word (log entry 13). What a step leaves in `awaitingKey` is decision D26 and has its own two statements; the statements
of single instructions leave it aside. -/

open Sys2Proof Sys2Proof.Machine

/-! ## Encoding (30_encoding.md, 40_step_cycle.md R103) -/

/-- A few words written out from R84 to R88 decode to the instructions they stand for. -/
def Obligations.SanityWordsDecode : Prop :=
  decode 0x00E0#16 = .ok .cls ∧ decode 0x00EE#16 = .ok .ret ∧ decode 0x0123#16 = .ok (.sys 0x123) ∧
  decode 0x2204#16 = .ok (.call 0x204) ∧ decode 0x6005#16 = .ok (.ldByte 0 5) ∧ decode 0x7003#16 = .ok (.addByte 0 3) ∧
  decode 0x8124#16 = .ok (.addReg 1 2) ∧ decode 0x9120#16 = .ok (.sneReg 1 2) ∧ decode 0xB300#16 = .ok (.jpV0 0x300) ∧
  decode 0xC10F#16 = .ok (.rnd 1 0x0F) ∧ decode 0xD015#16 = .ok (.drw 0 1 5) ∧ decode 0xE2A1#16 = .ok (.sknp 2) ∧
  decode 0xF30A#16 = .ok (.ldVxK 3) ∧ decode 0xF255#16 = .ok (.storeRegs 2)

/-- Every well-formed instruction decodes from its own word, with every operand at every value (R82 to R88). -/
def Obligations.DecodeOfEncodeIsTheInstruction : Prop :=
  ∀ i : Instr, i.wellFormed = true → decode (encode i) = .ok i

/-- A word that decodes is the word of a well-formed instruction: no bit is dropped, and no two words share an
instruction ("each word decodes to exactly one result", R103; SYS is never 00E0 or 00EE, R85). -/
def Obligations.EncodeOfDecodeIsTheWord : Prop :=
  ∀ (w : Word) (i : Instr), decode w = .ok i → i.wellFormed = true ∧ encode i = w

/-- The unknown words are exactly those R90 lists (decisions D12 and D35): 5XYn and 9XYn with n ≠ 0, 8XYn with n in
8, 9, A, B, C, D, F, and EXkk, FXkk with a low byte not listed. -/
def Obligations.UnknownWordsAreTheListedOnes : Prop :=
  ∀ w : Word,
    let unknown : Prop :=
      (fieldOp w = 0x5#4 ∧ fieldN w ≠ 0#4) ∨ (fieldOp w = 0x9#4 ∧ fieldN w ≠ 0#4) ∨
      (fieldOp w = 0x8#4 ∧ fieldN w ∈ [0x8#4, 0x9#4, 0xA#4, 0xB#4, 0xC#4, 0xD#4, 0xF#4]) ∨
      (fieldOp w = 0xE#4 ∧ fieldKk w ∉ [0x9E#8, 0xA1#8]) ∨
      (fieldOp w = 0xF#4 ∧
        fieldKk w ∉ [0x07#8, 0x0A#8, 0x15#8, 0x18#8, 0x1E#8, 0x29#8, 0x33#8, 0x55#8, 0x65#8])
    (unknown → decode w = .error (.unknownOpcode w)) ∧ (¬unknown → ∃ i, decode w = .ok i)

/-- R103: `opcode_table.json` is the table of `decode`: the first row a word matches names the instruction it decodes
to, and a word that matches none is Unknown. -/
def Obligations.DecodeFollowsTheOpcodeTable : Prop :=
  ∀ w : Word,
    (∃ i r, decode w = .ok i ∧ opcodeTable.find? (fun r => r.fits w) = some r ∧ r.mnemonic = i.mnemonic) ∨
    (decode w = .error (.unknownOpcode w) ∧ opcodeTable.find? (fun r => r.fits w) = none)

/-! ## The step (40_step_cycle.md, 60_exceptions.md) -/

/-- R102: the word at a PC of at most 0xFFE is the big-endian pair of bytes at PC and PC + 1, at any alignment, as memory
now holds them; when it decodes, the step is that instruction's execution and nothing besides. -/
def Obligations.StepRunsTheDecodedInstruction : Prop :=
  ∀ (s : State) (i : Instr), s.pc.toNat ≤ 0xFFE →
    decode (s.readByte (BitVec.ofNat 12 s.pc.toNat) ++ s.readByte (BitVec.ofNat 12 (s.pc.toNat + 1))) = .ok i →
    step s = exec i s

/-- R105: a word that decodes to Unknown raises UnknownOpcode(w, PC), changes no other state, and PC advances by 2. -/
def Obligations.StepReportsAnUnknownOpcode : Prop :=
  ∀ (s : State) (w : Word), s.pc.toNat ≤ 0xFFE →
    w = s.readByte (BitVec.ofNat 12 s.pc.toNat) ++ s.readByte (BitVec.ofNat 12 (s.pc.toNat + 1)) →
    decode w = .error (.unknownOpcode w) →
    ∃ t, step s = .next t ∧ t.pc = s.pc + 2#16 ∧
      t.diags = s.diags ++ [.unknownOpcode w s.pc] ∧ OnlyChanges [.diags] s t

/-- R101 (the bound 0xFFE is decision D2, the full-memory bound D20): a step at a PC above 0xFFE raises
ProgramCounterOutOfBounds(PC), sets PC to 0x200, clears `awaitingKey` and changes no other state. -/
def Obligations.StepRecoversAnOutOfBoundsPc : Prop :=
  ∀ s : State, 0xFFE < s.pc.toNat →
    ∃ t, step s = .next t ∧ t.pc = 0x200#16 ∧ t.awaitingKey = false ∧
      t.diags = s.diags ++ [.programCounterOutOfBounds s.pc] ∧ OnlyChanges [.diags] s t

/-- R210: "none should terminate the host process": from every state, a step gives a next state. -/
def Obligations.StepNeverStops : Prop := ∀ s : State, ∃ t, step s = .next t

/-- R214 (decision D34): a step raises at most one diagnostic, the checks coming in the order PC bound, decode,
instruction; the instruction's own is raised only by 00EE with SP = 0, 2NNN with SP = 16, and under DATA_OOB = skip by
FX33, FX55, FX65 and DXYN, with the least address above 0xFFF at I; CapacityExceeded is raised by none. -/
def Obligations.StepRaisesAtMostOneDiagnostic : Prop :=
  ∀ s t : State, step s = .next t →
    (0xFFE < s.pc.toNat ∧ t.diags = s.diags ++ [.programCounterOutOfBounds s.pc]) ∨
    (s.pc.toNat ≤ 0xFFE ∧ decode s.fetchWord = .error (.unknownOpcode s.fetchWord) ∧
      t.diags = s.diags ++ [.unknownOpcode s.fetchWord s.pc]) ∨
    (s.pc.toNat ≤ 0xFFE ∧ ∃ i, decode s.fetchWord = .ok i ∧
      (t.diags = s.diags ∨
       (i = .ret ∧ s.sp.val = 0 ∧ t.diags = s.diags ++ [.stackUnderflow s.pc]) ∨
       ((∃ nnn, i = .call nnn) ∧ s.sp.val = 16 ∧ t.diags = s.diags ++ [.stackOverflow s.pc]) ∨
       ((∃ x, i = .ldB x ∨ i = .storeRegs x ∨ i = .loadRegs x ∨ ∃ y n, i = .drw x y n) ∧
         s.params.dataOob = .skip ∧
         t.diags = s.diags ++ [.memoryAccessOutOfBounds s.pc (max s.i.toNat 0x1000)])))

/-- The access summary R41, for the state the step meets: a step writes nothing but what the rule of its instruction
names (`stepWrites`), PC and `awaitingKey`; no step writes the key state, `loadedSize`, `tickAcc` or the parameters. -/
def Obligations.StepChangesOnlyWhatItsInstructionWrites : Prop :=
  ∀ s t : State, step s = .next t → OnlyChanges (stepWrites s) s t

/-- R24 ("PC never exceeds 0x10FE") with the canonical form of memory: every step keeps the invariant. -/
def Obligations.EveryStepKeepsTheInvariant : Prop :=
  ∀ s t : State, s.Inv → step s = .next t → t.Inv

/-- The state after reset meets the invariant (R39, R24). -/
def Obligations.ResetMeetsTheInvariant : Prop := State.reset.Inv

/-- Every run of operations and host events, in any order (R222, R234), keeps the invariant. -/
def Obligations.EveryRunKeepsTheInvariant : Prop :=
  ∀ (ops : List Op) (s t : State), s.Inv → s.run ops = .next t → t.Inv

/-- R106, R194 (decision D26): an instruction leaves `awaitingKey` true exactly if it is FX0A with no key down. -/
def Obligations.AwaitingKeyIsSetOnlyByTheKeyWait : Prop :=
  ∀ (i : Instr) (s t : State), exec i s = .next t →
    (t.awaitingKey = true ↔ (∃ x, i = .ldVxK x) ∧ ∀ k, s.keyDown k = false)

/-- R33, R106, R234 (decision D26): after a step `awaitingKey` is true exactly if the step executed FX0A with no key down;
the step's result is Suspended exactly then, and Recovered exactly if a diagnostic was raised; it is what the operation
`step` returns to the host, with the state the step leaves. -/
def Obligations.StepResultSaysWhatHappened : Prop :=
  ∀ s t : State, step s = .next t →
    (t.awaitingKey = true ↔
      s.pc.toNat ≤ 0xFFE ∧ (∃ x, decode s.fetchWord = .ok (.ldVxK x)) ∧ ∀ k, s.keyDown k = false) ∧
    (stepResult s t = .suspended ↔ t.awaitingKey = true) ∧
    (stepResult s t = .recovered ↔ t.diags ≠ s.diags) ∧
    s.operate .step = .next (t, .stepped (stepResult s t))

/-! ## Control flow (41_control_flow.md) -/

/-- R121 (decision D12): SYS reads and writes nothing; PC advances by 2. -/
def Obligations.SysIsANoOp : Prop :=
  ∀ (nnn : Addr) (s : State), ∃ t, exec (.sys nnn) s = .next t ∧ t.pc = s.pc + 2#16 ∧
    OnlyChanges [] s t

/-- R122 with SP above 0 (that the popped entry stays is decision D24): SP is decremented, then PC is `stack[SP]`. -/
def Obligations.RetPopsTheReturnAddress : Prop :=
  decode 0x00EE#16 = .ok .ret ∧
  ∀ (s : State) (k : Fin 16), s.sp.val = k.val + 1 →
    ∃ t, exec .ret s = .next t ∧ t.pc = s.stack[k] ∧ t.sp.val = k.val ∧ t.diags = s.diags ∧
      OnlyChanges [.sp] s t

/-- R124 with SP below 16: `stack[SP]` receives PC + 2, SP is incremented, PC is nnn. -/
def Obligations.CallPushesTheReturnAddress : Prop :=
  ∀ (nnn : Addr) (s : State) (k : Fin 16), s.sp.val = k.val →
    decode (0x2#4 ++ nnn) = .ok (.call nnn) ∧
    ∃ t, exec (.call nnn) s = .next t ∧ t.pc.toNat = nnn.toNat ∧ t.stack[k] = s.pc + 2#16 ∧ t.sp.val = k.val + 1 ∧
      t.diags = s.diags ∧ OnlyChanges [.stackEntry k.val, .sp] s t

/-- R122 and R124 at the limits (that nothing but PC changes is decision D23): 00EE with SP = 0 raises
StackUnderflow(PC), 2NNN with SP = 16 raises StackOverflow(PC); the stack and SP stay and PC advances by 2. -/
def Obligations.StackLimitsAreReported : Prop :=
  (∀ s : State, s.sp.val = 0 →
    ∃ t, exec .ret s = .next t ∧ t.pc = s.pc + 2#16 ∧
      t.diags = s.diags ++ [.stackUnderflow s.pc] ∧ OnlyChanges [.diags] s t) ∧
  (∀ (nnn : Addr) (s : State), s.sp.val = 16 →
    ∃ t, exec (.call nnn) s = .next t ∧ t.pc = s.pc + 2#16 ∧
      t.diags = s.diags ++ [.stackOverflow s.pc] ∧ OnlyChanges [.diags] s t)

/-- The source's scenario (95_test_vectors.md L1.9): a return undoes its call. PC is the address after the call, SP is
as before, and only the stack entry the call wrote differs. -/
def Obligations.ReturnUndoesItsCall : Prop :=
  ∀ (nnn : Addr) (s : State), s.sp.val < 16 →
    ∃ t u, exec (.call nnn) s = .next t ∧ exec .ret t = .next u ∧ u.pc = s.pc + 2#16 ∧ u.sp = s.sp ∧
      OnlyChanges [.stackEntry s.sp.val] s u

/-- R123: PC is nnn, any address 0x000 to 0xFFF; no other state changes, so a jump to itself, with
`awaitingKey` already false, changes nothing. -/
def Obligations.JumpSetsPc : Prop :=
  ∀ (nnn : Addr) (s : State), decode (0x1#4 ++ nnn) = .ok (.jp nnn) ∧
    (∃ t, exec (.jp nnn) s = .next t ∧ t.pc.toNat = nnn.toNat ∧ OnlyChanges [] s t) ∧
    (s.pc.toNat = nnn.toNat → s.awaitingKey = false → exec (.jp nnn) s = .next s)

/-- R125, R126: 3XNN skips when Vx is the byte, 4XNN when it is not; a skip is PC + 4, else PC + 2; no other state
changes. -/
def Obligations.ByteSkipsCompareVx : Prop :=
  ∀ (x : Nibble) (kk : Byte) (s : State),
    decode (0x3#4 ++ x ++ kk) = .ok (.seByte x kk) ∧ decode (0x4#4 ++ x ++ kk) = .ok (.sneByte x kk) ∧
    (∃ t, exec (.seByte x kk) s = .next t ∧ OnlyChanges [] s t ∧
      (s.getV x = kk → t.pc = s.pc + 4#16) ∧ (s.getV x ≠ kk → t.pc = s.pc + 2#16)) ∧
    (∃ t, exec (.sneByte x kk) s = .next t ∧ OnlyChanges [] s t ∧
      (s.getV x ≠ kk → t.pc = s.pc + 4#16) ∧ (s.getV x = kk → t.pc = s.pc + 2#16))

/-- R127, R128: 5XY0 skips when Vx is Vy, 9XY0 when it is not; a low nibble other than 0 is an unknown opcode
(decision D12). -/
def Obligations.RegisterSkipsCompareVxVy : Prop :=
  ∀ (x y n : Nibble) (s : State),
    (n = 0#4 → decode (0x5#4 ++ x ++ y ++ n) = .ok (.seReg x y) ∧ decode (0x9#4 ++ x ++ y ++ n) = .ok (.sneReg x y)) ∧
    (n ≠ 0#4 → decode (0x5#4 ++ x ++ y ++ n) = .error (.unknownOpcode (0x5#4 ++ x ++ y ++ n)) ∧
      decode (0x9#4 ++ x ++ y ++ n) = .error (.unknownOpcode (0x9#4 ++ x ++ y ++ n))) ∧
    (∃ t, exec (.seReg x y) s = .next t ∧ OnlyChanges [] s t ∧
      (s.getV x = s.getV y → t.pc = s.pc + 4#16) ∧ (s.getV x ≠ s.getV y → t.pc = s.pc + 2#16)) ∧
    (∃ t, exec (.sneReg x y) s = .next t ∧ OnlyChanges [] s t ∧
      (s.getV x ≠ s.getV y → t.pc = s.pc + 4#16) ∧ (s.getV x = s.getV y → t.pc = s.pc + 2#16))

/-- R129: PC is nnn + V0, whatever the x field holds, not masked to 12 bits; no other state changes. -/
def Obligations.OffsetJumpAddsV0 : Prop :=
  ∀ (nnn : Addr) (s : State), decode (0xB#4 ++ nnn) = .ok (.jpV0 nnn) ∧
    ∃ t, exec (.jpV0 nnn) s = .next t ∧ t.pc.toNat = nnn.toNat + (s.getV 0#4).toNat ∧
      OnlyChanges [] s t

/-! ## Register loads and the ALU (42_alu.md) -/

/-- R141: Vx is the byte (VF too, as a register, where x is F); PC + 2; nothing else changes. -/
def Obligations.LoadImmediateWritesVx : Prop :=
  ∀ (x : Nibble) (kk : Byte) (s : State), decode (0x6#4 ++ x ++ kk) = .ok (.ldByte x kk) ∧
    ∃ t, exec (.ldByte x kk) s = .next t ∧ t.getV x = kk ∧ t.pc = s.pc + 2#16 ∧
      OnlyChanges [.reg x] s t

/-- R142: Vx is (Vx + kk) mod 256; the carry is lost and VF is not written unless x is F (decision D8). -/
def Obligations.AddImmediateWraps : Prop :=
  ∀ (x : Nibble) (kk : Byte) (s : State), decode (0x7#4 ++ x ++ kk) = .ok (.addByte x kk) ∧
    ∃ t, exec (.addByte x kk) s = .next t ∧ (t.getV x).toNat = ((s.getV x).toNat + kk.toNat) % 256 ∧
      t.pc = s.pc + 2#16 ∧ OnlyChanges [.reg x] s t

/-- R143 to R146: Vx is Vy, or the bitwise or, and, exclusive or of Vx and Vy; VF is not written unless x is F
(decision D7). -/
def Obligations.CopyAndLogicWriteVx : Prop :=
  ∀ (x y : Nibble) (s : State),
    (decode (0x8#4 ++ x ++ y ++ 0x0#4) = .ok (.ldReg x y) ∧ decode (0x8#4 ++ x ++ y ++ 0x1#4) = .ok (.orReg x y) ∧
     decode (0x8#4 ++ x ++ y ++ 0x2#4) = .ok (.andReg x y) ∧ decode (0x8#4 ++ x ++ y ++ 0x3#4) = .ok (.xorReg x y)) ∧
    (∃ t, exec (.ldReg x y) s = .next t ∧ t.getV x = s.getV y ∧ t.pc = s.pc + 2#16 ∧
      OnlyChanges [.reg x] s t) ∧
    (∃ t, exec (.orReg x y) s = .next t ∧ t.getV x = s.getV x ||| s.getV y ∧ t.pc = s.pc + 2#16 ∧
      OnlyChanges [.reg x] s t) ∧
    (∃ t, exec (.andReg x y) s = .next t ∧ t.getV x = s.getV x &&& s.getV y ∧ t.pc = s.pc + 2#16 ∧
      OnlyChanges [.reg x] s t) ∧
    (∃ t, exec (.xorReg x y) s = .next t ∧ t.getV x = s.getV x ^^^ s.getV y ∧ t.pc = s.pc + 2#16 ∧
      OnlyChanges [.reg x] s t)

/-- R147 (where result and flag stand for x = F is decision D6, both settings of FLAG_ORDER): the sum modulo 256 and the
carry, from the old Vx and Vy. -/
def Obligations.AddSetsTheCarry : Prop :=
  ∀ (x y : Nibble) (s : State), decode (0x8#4 ++ x ++ y ++ 0x4#4) = .ok (.addReg x y) ∧
    ∃ t, exec (.addReg x y) s = .next t ∧
      ResultAndFlag s t x (((s.getV x).toNat + (s.getV y).toNat) % 256)
        (if (s.getV x).toNat + (s.getV y).toNat > 255 then 1 else 0) ∧
      t.pc = s.pc + 2#16 ∧ OnlyChanges [.reg x, .reg 0xF#4] s t

/-- R148, R150 (where result and flag stand for x = F is decision D6, both settings of FLAG_ORDER): Vx - Vy and Vy - Vx
modulo 256 with the no-borrow flag, from the old Vx and Vy. -/
def Obligations.SubtractionsSetNoBorrow : Prop :=
  ∀ (x y : Nibble) (s : State),
    decode (0x8#4 ++ x ++ y ++ 0x5#4) = .ok (.subReg x y) ∧ decode (0x8#4 ++ x ++ y ++ 0x7#4) = .ok (.subnReg x y) ∧
    (∃ t, exec (.subReg x y) s = .next t ∧
      ResultAndFlag s t x (((s.getV x).toNat + 256 - (s.getV y).toNat) % 256)
        (if (s.getV x).toNat ≥ (s.getV y).toNat then 1 else 0) ∧
      t.pc = s.pc + 2#16 ∧ OnlyChanges [.reg x, .reg 0xF#4] s t) ∧
    (∃ t, exec (.subnReg x y) s = .next t ∧
      ResultAndFlag s t x (((s.getV y).toNat + 256 - (s.getV x).toNat) % 256)
        (if (s.getV y).toNat ≥ (s.getV x).toNat then 1 else 0) ∧
      t.pc = s.pc + 2#16 ∧ OnlyChanges [.reg x, .reg 0xF#4] s t)

/-- R149, R151 (where result and flag stand for x = F is decision D6, both settings of FLAG_ORDER): Vx shifted by one, the
bit shifted out as the flag; Vy is not read. -/
def Obligations.ShiftsPutTheBitOutInVF : Prop :=
  ∀ (x y : Nibble) (s : State),
    decode (0x8#4 ++ x ++ y ++ 0x6#4) = .ok (.shr x y) ∧ decode (0x8#4 ++ x ++ y ++ 0xE#4) = .ok (.shl x y) ∧
    (∃ t, exec (.shr x y) s = .next t ∧
      ResultAndFlag s t x ((s.getV x).toNat / 2) ((s.getV x).toNat % 2) ∧
      t.pc = s.pc + 2#16 ∧ OnlyChanges [.reg x, .reg 0xF#4] s t) ∧
    (∃ t, exec (.shl x y) s = .next t ∧
      ResultAndFlag s t x ((s.getV x).toNat * 2 % 256) ((s.getV x).toNat / 128) ∧
      t.pc = s.pc + 2#16 ∧ OnlyChanges [.reg x, .reg 0xF#4] s t)

/-! ## Index register and memory (43_index_memory.md) -/

/-- R160, R161: ANNN sets I to nnn; FX1E adds Vx modulo 65536 and writes no flag (decision D9). -/
def Obligations.IndexIsSetAndAdded : Prop :=
  (∀ (nnn : Addr) (s : State), decode (0xA#4 ++ nnn) = .ok (.ldI nnn) ∧
    ∃ t, exec (.ldI nnn) s = .next t ∧ t.i.toNat = nnn.toNat ∧ t.pc = s.pc + 2#16 ∧
      OnlyChanges [.index] s t) ∧
  (∀ (x : Nibble) (s : State), decode (0xF#4 ++ x ++ 0x1E#8) = .ok (.addI x) ∧
    ∃ t, exec (.addI x) s = .next t ∧ t.i.toNat = (s.i.toNat + (s.getV x).toNat) % 65536 ∧ t.pc = s.pc + 2#16 ∧
      OnlyChanges [.index] s t)

/-- R162, R37: FX29 sets I to FONT_BASE + 5 times the low nibble of Vx (decision D10), for either FONT_BASE; after a
reset the five bytes there are that glyph's rows of FONT_DATA. -/
def Obligations.GlyphAddressFindsTheGlyph : Prop :=
  ∀ (x : Nibble) (s : State), decode (0xF#4 ++ x ++ 0x29#8) = .ok (.ldF x) ∧
    ∃ t, exec (.ldF x) s = .next t ∧
      t.i.toNat = s.params.fontBase.addr + 5 * ((s.getV x).toNat % 16) ∧ t.pc = s.pc + 2#16 ∧
      OnlyChanges [.index] s t ∧
      ∀ r : Fin 5, s.resetOp.readByte (BitVec.ofNat 12 (t.i.toNat + r.val)) =
        s.params.fontData[5 * ((s.getV x).toNat % 16) + r.val]'(by omega)

/-- R163: the hundreds, tens and units of Vx go to the three addresses at I, all other bytes and I are kept. Both settings
of DATA_OOB, which are decision D3 (log entry 14): where an address is above 0xFFF under `skip`, the diagnostic and no
effect. -/
def Obligations.BcdStoresThreeDigits : Prop :=
  ∀ (x : Nibble) (s : State), decode (0xF#4 ++ x ++ 0x33#8) = .ok (.ldB x) ∧
    (MayAccess s 3 →
      ∃ t, exec (.ldB x) s = .next t ∧
        (t.readByte (s.dataAddr 0)).toNat = (s.getV x).toNat / 100 ∧
        (t.readByte (s.dataAddr 1)).toNat = (s.getV x).toNat / 10 % 10 ∧
        (t.readByte (s.dataAddr 2)).toNat = (s.getV x).toNat % 10 ∧
        t.pc = s.pc + 2#16 ∧ OnlyChanges (dataBytes s 3) s t) ∧
    (¬MayAccess s 3 → ReportsOutOfRange (.ldB x) s)

/-- R164: V0 to Vx go to the addresses at I, all other bytes and I are kept. Both settings of DATA_OOB, which are decision
D3 (log entry 14): where an address is above 0xFFF under `skip`, the diagnostic and no effect. -/
def Obligations.BlockStoreCopiesRegisters : Prop :=
  ∀ (x : Nibble) (s : State), decode (0xF#4 ++ x ++ 0x55#8) = .ok (.storeRegs x) ∧
    (MayAccess s (x.toNat + 1) →
      ∃ t, exec (.storeRegs x) s = .next t ∧
        (∀ y : Nibble, y.toNat ≤ x.toNat → t.readByte (s.dataAddr y.toNat) = s.getV y) ∧
        t.pc = s.pc + 2#16 ∧ OnlyChanges (dataBytes s (x.toNat + 1)) s t) ∧
    (¬MayAccess s (x.toNat + 1) → ReportsOutOfRange (.storeRegs x) s)

/-- R165: V0 to Vx receive the bytes at I (VF too, where x is F), all other registers and I are kept. Both settings of
DATA_OOB, which are decision D3 (log entry 14): where an address is above 0xFFF under `skip`, the diagnostic and no
effect. -/
def Obligations.BlockLoadFillsRegisters : Prop :=
  ∀ (x : Nibble) (s : State), decode (0xF#4 ++ x ++ 0x65#8) = .ok (.loadRegs x) ∧
    (MayAccess s (x.toNat + 1) →
      ∃ t, exec (.loadRegs x) s = .next t ∧
        (∀ y : Nibble, y.toNat ≤ x.toNat → t.getV y = s.readByte (s.dataAddr y.toNat)) ∧
        t.pc = s.pc + 2#16 ∧ OnlyChanges (firstRegs (x.toNat + 1)) s t) ∧
    (¬MayAccess s (x.toNat + 1) → ReportsOutOfRange (.loadRegs x) s)

/-- R166 (decision D3, log entry 14): a data address is I + k where that is in memory, and I + k modulo 4096 under
`wrap`. -/
def Obligations.DataAddressesAreIPlusOffset : Prop :=
  ∀ (s : State) (c k : Nat), MayAccess s c → k < c →
    (s.params.dataOob = .skip → (s.dataAddr k).toNat = s.i.toNat + k) ∧
    (s.params.dataOob = .wrap → (s.dataAddr k).toNat = (s.i.toNat + k) % 4096)

/-- R61, R255 (decision D30; which accesses may be made, and where they reach, is decision D3): a store of FX55 or FX33
that reaches a byte of the word after the instruction, from any I, is what the next step fetches there, the byte at PC + 2
in bits 15:8; a byte it does not reach is fetched as it was. A loaded program is fetched likewise. -/
def Obligations.StoreIsSeenByTheNextFetch : Prop :=
  (∀ (x : Nibble) (s : State), s.pc.toNat ≤ 0xFFC → MayAccess s (x.toNat + 1) →
    ∃ t, exec (.storeRegs x) s = .next t ∧ t.pc = s.pc + 2#16 ∧
      FetchesStored s t (x.toNat + 1) (fun k => (s.getV (BitVec.ofNat 4 k)).toNat)) ∧
  (∀ (x : Nibble) (s : State), s.pc.toNat ≤ 0xFFC → MayAccess s 3 →
    ∃ t, exec (.ldB x) s = .next t ∧ t.pc = s.pc + 2#16 ∧
      FetchesStored s t 3 (fun k => (s.getV x).toNat / 10 ^ (2 - k) % 10)) ∧
  (∀ (s : State) (first second : Byte) (rest : List Byte), rest.length + 2 ≤ 3584 →
    ∃ t, s.operate (.loadProgram (first :: second :: rest)) = .next (t, .loaded) ∧ t.pc = 0x200#16 ∧
      t.fetchWord = first ++ second)

/-! ## Random byte and timers (44_timers_random.md, 60_exceptions.md) -/

/-- R180 (the free draw is decision D27): Vx is the drawn byte under the mask, for every byte drawn; VF is not written
unless x is F. Which byte is drawn, the free value `Config.randomByte` of a counter that each draw advances, is the model's
choice (log entry 3). -/
def Obligations.RandomByteIsMasked : Prop :=
  ∀ (x : Nibble) (kk : Byte) (s : State), decode (0xC#4 ++ x ++ kk) = .ok (.rnd x kk) ∧
    (∃ t, exec (.rnd x kk) s = .next t ∧ t.getV x = Config.randomByte s.draws &&& kk ∧ t.draws = s.draws + 1 ∧
      t.pc = s.pc + 2#16 ∧ OnlyChanges [.reg x, .draws] s t) ∧
    exec (.rnd x kk) s = .next (s.randomResult x kk (Config.randomByte s.draws)) ∧
    ∀ b, (s.randomResult x kk b).getV x = b &&& kk ∧ OnlyChanges [.reg x, .draws] s (s.randomResult x kk b)

/-- R181 to R183 (that `tickAcc` is kept is decision D32): FX07 copies DT to Vx, FX15 and FX18 copy Vx to DT and ST. -/
def Obligations.TimersAreReadAndWritten : Prop :=
  ∀ (x : Nibble) (s : State),
    (decode (0xF#4 ++ x ++ 0x07#8) = .ok (.ldVxDt x) ∧ decode (0xF#4 ++ x ++ 0x15#8) = .ok (.ldDtVx x) ∧
     decode (0xF#4 ++ x ++ 0x18#8) = .ok (.ldStVx x)) ∧
    (∃ t, exec (.ldVxDt x) s = .next t ∧ t.getV x = s.dt ∧ t.pc = s.pc + 2#16 ∧
      OnlyChanges [.reg x] s t) ∧
    (∃ t, exec (.ldDtVx x) s = .next t ∧ t.dt = s.getV x ∧ t.pc = s.pc + 2#16 ∧
      OnlyChanges [.dt] s t) ∧
    (∃ t, exec (.ldStVx x) s = .next t ∧ t.st = s.getV x ∧ t.pc = s.pc + 2#16 ∧
      OnlyChanges [.st] s t)

/-- R221: one tick decrements each nonzero timer, leaves a zero timer at zero, and changes nothing else. -/
def Obligations.TickDecrementsNonzeroTimers : Prop :=
  ∀ s : State, s.tick.dt.toNat = s.dt.toNat - 1 ∧ s.tick.st.toNat = s.st.toNat - 1 ∧
    s.tick.pc = s.pc ∧ s.tick.awaitingKey = s.awaitingKey ∧ OnlyChanges [.dt, .st] s s.tick

/-- R220 (decisions D18, D33): `tickTimers` decrements each timer once per whole 16 ms accumulated, not below zero, keeps
the remainder, and changes nothing else. -/
def Obligations.TimersCountElapsedPeriods : Prop :=
  ∀ (s : State) (ms : Nat),
    (s.tickTimers ms).dt.toNat = s.dt.toNat - (s.tickAcc.val + ms) / 16 ∧
    (s.tickTimers ms).st.toNat = s.st.toNat - (s.tickAcc.val + ms) / 16 ∧
    (s.tickTimers ms).tickAcc.val = (s.tickAcc.val + ms) % 16 ∧
    s.tickTimers ms = { s with dt := (s.tickTimers ms).dt, st := (s.tickTimers ms).st,
                               tickAcc := (s.tickTimers ms).tickAcc }

/-- R220 (decision D18): the ticks of a sequence of calls depend only on the total elapsed time, "however the calls are
spaced". -/
def Obligations.TickSpacingDoesNotMatter : Prop :=
  ∀ (s : State) (spans : List Nat), spans.foldl State.tickTimers s = s.tickTimers spans.sum

/-! ## Display and keyboard (45_display_keys.md) -/

/-- R190: every cell 0 and the redraw flag raised, whatever they were; VF and all else unchanged. -/
def Obligations.ClearScreenBlanksEveryCell : Prop :=
  ∀ s : State, decode 0x00E0#16 = .ok .cls ∧
    ∃ t, exec .cls s = .next t ∧ (∀ j < 2048, t.readCell j = false) ∧ t.redraw = true ∧ t.pc = s.pc + 2#16 ∧
      OnlyChanges [.fb, .redraw] s t

/-- R191, R29 (decisions D13, D14, D15; which rows may be read is decision D3): every cell `fb[py * 64 + px]` a set sprite
bit covers is exclusive-ored with 1 and no other cell changes; VF is 1 if a lit cell was covered, else 0; the redraw flag
is raised. Coordinates are the old Vx and Vy, and no order of the drawing shows. -/
def Obligations.DrawXorsTheCoveredCells : Prop :=
  ∀ (x y n : Nibble) (s : State), decode (0xD#4 ++ x ++ y ++ n) = .ok (.drw x y n) ∧
    (MayAccess s n.toNat →
      ∃ t, exec (.drw x y n) s = .next t ∧
        (∀ px < 64, ∀ py < 32,
          (t.readCell (py * 64 + px) = true ↔
            ¬(s.readCell (py * 64 + px) = true ↔
              SpriteCovers s (s.getV x).toNat (s.getV y).toNat n.toNat px py)) ∧
          t.readCell (py * 64 + px) = Framebuffer.pixel t.fb px py) ∧
        ((∃ px < 64, ∃ py < 32, s.readCell (py * 64 + px) = true ∧
            SpriteCovers s (s.getV x).toNat (s.getV y).toNat n.toNat px py) → t.getV 0xF#4 = 1#8) ∧
        ((¬∃ px < 64, ∃ py < 32, s.readCell (py * 64 + px) = true ∧
            SpriteCovers s (s.getV x).toNat (s.getV y).toNat n.toNat px py) → t.getV 0xF#4 = 0#8) ∧
        t.redraw = true ∧ t.pc = s.pc + 2#16 ∧ OnlyChanges [.fb, .redraw, .reg 0xF#4] s t)

/-- R191 with a row above 0xFFF under `skip` (decisions D3, D38): the diagnostic; no cell, VF or redraw is written. -/
def Obligations.DrawBeyondMemoryIsReported : Prop :=
  ∀ (x y n : Nibble) (s : State), ¬MayAccess s n.toNat → ReportsOutOfRange (.drw x y n) s

/-- The source's self-inverse property (95_test_vectors.md L1.3; which rows may be read is decision D3): the same sprite
drawn twice at the same place leaves the framebuffer as it was, and where every cell the host reads was 0, the second draw
leaves VF = 1 exactly if the sprite has a set bit. It holds whatever the order of cells and of sprite bits. -/
def Obligations.DrawingTwiceErases : Prop :=
  ∀ (x y n : Nibble) (s : State), x ≠ 0xF#4 → y ≠ 0xF#4 → MayAccess s n.toNat →
    ∃ t u, exec (.drw x y n) s = .next t ∧ exec (.drw x y n) t = .next u ∧ u.fb = s.fb ∧
      ((∀ j < 2048, s.readCell j = false) →
        (u.getV 0xF#4 = 1#8 ↔ ∃ r < n.toNat, s.readByte (s.dataAddr r) ≠ 0#8))

/-- R192, R193 (the low nibble is decision D11): EX9E skips when the key of Vx's low nibble is down, EXA1 when it is
up. -/
def Obligations.KeySkipsReadTheKey : Prop :=
  ∀ (x k : Nibble) (s : State), k.toNat = (s.getV x).toNat % 16 →
    (decode (0xE#4 ++ x ++ 0x9E#8) = .ok (.skp x) ∧ decode (0xE#4 ++ x ++ 0xA1#8) = .ok (.sknp x)) ∧
    (∃ t, exec (.skp x) s = .next t ∧ OnlyChanges [] s t ∧
      (s.keyDown k = true → t.pc = s.pc + 4#16) ∧ (s.keyDown k = false → t.pc = s.pc + 2#16)) ∧
    (∃ t, exec (.sknp x) s = .next t ∧ OnlyChanges [] s t ∧
      (s.keyDown k = false → t.pc = s.pc + 4#16) ∧ (s.keyDown k = true → t.pc = s.pc + 2#16))

/-- R194 with a key down (decision D25): the lowest index down goes to Vx, the key state is kept, PC + 2. -/
def Obligations.KeyWaitTakesTheLowestKey : Prop :=
  ∀ (x k : Nibble) (s : State), s.keyDown k = true → (∀ j, j.toNat < k.toNat → s.keyDown j = false) →
    decode (0xF#4 ++ x ++ 0x0A#8) = .ok (.ldVxK x) ∧
    ∃ t, exec (.ldVxK x) s = .next t ∧ (t.getV x).toNat = k.toNat ∧ t.pc = s.pc + 2#16 ∧
      OnlyChanges [.reg x] s t

/-- R194 with no key down (decision D26): PC stays, `awaitingKey` is true, and nothing else changes. -/
def Obligations.KeyWaitSuspendsWithNoKey : Prop :=
  ∀ (x : Nibble) (s : State), (∀ k, s.keyDown k = false) → exec (.ldVxK x) s = .next { s with awaitingKey := true }

/-! ## Reset, loading and the host (10_state.md, 60_exceptions.md, 70_reset_and_hazards.md) -/

/-- R39, R250 (the zeros of memory, keys, redraw, `awaitingKey` and `tickAcc` are decision D16): the value of every piece
of state after the reset operation, for either FONT_BASE and any FONT_DATA; the records already emitted stay (R213). -/
def Obligations.ResetLeavesTheListedValues : Prop :=
  ∀ s : State,
    (∀ x, s.resetOp.getV x = 0#8) ∧ s.resetOp.i = 0#16 ∧ s.resetOp.pc = 0x200#16 ∧
    (∀ k : Fin 16, s.resetOp.stack[k] = 0#16) ∧ s.resetOp.sp.val = 0 ∧ s.resetOp.dt = 0#8 ∧ s.resetOp.st = 0#8 ∧
    (∀ j : Fin 80, s.resetOp.readByte (BitVec.ofNat 12 (s.params.fontBase.addr + j.val)) = s.params.fontData[j]) ∧
    (∀ a : Addr, (a.toNat < s.params.fontBase.addr ∨ s.params.fontBase.addr + 80 ≤ a.toNat) →
      s.resetOp.readByte a = 0#8) ∧
    (∀ j < 2048, s.resetOp.readCell j = false) ∧ s.resetOp.redraw = false ∧ (∀ k, s.resetOp.keyDown k = false) ∧
    s.resetOp.awaitingKey = false ∧ s.resetOp.loadedSize = none ∧ s.resetOp.tickAcc.val = 0 ∧
    s.resetOp.diags = s.diags

/-- R252 (decision D17): a program of at most 3584 bytes is copied to 0x200 and on over a reset core, which keeps every
other byte; its size is recorded; the rest is the reset state. -/
def Obligations.LoadProgramCopiesOverAReset : Prop :=
  ∀ (s : State) (bytes : List Byte), bytes.length ≤ 3584 →
    ∃ t, s.operate (.loadProgram bytes) = .next (t, .loaded) ∧
      (∀ j (h : j < bytes.length), t.readByte (BitVec.ofNat 12 (0x200 + j)) = bytes[j]) ∧
      (∀ a : Addr, (a.toNat < 0x200 ∨ 0x200 + bytes.length ≤ a.toNat) → t.readByte a = s.resetOp.readByte a) ∧
      t.loadedSize.map (fun n => n.val) = some bytes.length ∧
      { t with mem := s.resetOp.mem, loadedSize := none } = s.resetOp

/-- R251: a program of more than 3584 bytes raises CapacityExceeded with its length and changes no state. -/
def Obligations.LoadProgramOverCapacityFails : Prop :=
  ∀ (s : State) (bytes : List Byte), 3584 < bytes.length →
    s.operate (.loadProgram bytes) =
      .next ({ s with diags := s.diags ++ [.capacityExceeded bytes.length] }, .capacityExceeded)

/-- R231, R232, R233: the key write sets one key and nothing else, the redraw acknowledge clears the flag and nothing
else, the sound-active output is whether ST is not zero. -/
def Obligations.HostEventsChangeOnlyTheirOwn : Prop :=
  ∀ (s : State) (k : Nibble) (down : Bool),
    (∃ t, s.operate (.writeKey k down) = .next (t, .nothing) ∧
      (∀ j, t.keyDown j = if j = k then down else s.keyDown j) ∧ { t with key := s.key } = s) ∧
    s.operate .ackRedraw = .next ({ s with redraw := false }, .nothing) ∧
    (s.soundActive = true ↔ s.st.toNat ≠ 0)

/-- R40 (decision D28): before the first reset every operation but reset is refused; a reset gives the state of R39 with
the parameters the core was built with. -/
def Obligations.NothingRunsBeforeReset : Prop :=
  ∀ (p : Params) (op : Op),
    (op ≠ .reset → (Chip.fresh p).operate op = .refused .neverReset) ∧
    (Chip.fresh p).operate .reset = .next ({ State.reset with params := p }, .nothing)
end

