-- ==== Sys2Proof/Laws/State.lean ====
section
/-! SUPPORT. One lemma per field per named update of the state, so that no proof unfolds a record update; then the
registers and bytes an update leaves. -/

namespace Sys2Proof.Machine

variable (s : State)

/-! ### `State.setV` -/

@[simp] theorem State.setV_v (x : Nibble) (b : Byte) : (s.setV x b).v = s.v.set x.toNat b x.isLt := rfl
@[simp] theorem State.setV_i (x : Nibble) (b : Byte) : (s.setV x b).i = s.i := rfl
@[simp] theorem State.setV_pc (x : Nibble) (b : Byte) : (s.setV x b).pc = s.pc := rfl
@[simp] theorem State.setV_stack (x : Nibble) (b : Byte) : (s.setV x b).stack = s.stack := rfl
@[simp] theorem State.setV_sp (x : Nibble) (b : Byte) : (s.setV x b).sp = s.sp := rfl
@[simp] theorem State.setV_dt (x : Nibble) (b : Byte) : (s.setV x b).dt = s.dt := rfl
@[simp] theorem State.setV_st (x : Nibble) (b : Byte) : (s.setV x b).st = s.st := rfl
@[simp] theorem State.setV_mem (x : Nibble) (b : Byte) : (s.setV x b).mem = s.mem := rfl
@[simp] theorem State.setV_fb (x : Nibble) (b : Byte) : (s.setV x b).fb = s.fb := rfl
@[simp] theorem State.setV_redraw (x : Nibble) (b : Byte) : (s.setV x b).redraw = s.redraw := rfl
@[simp] theorem State.setV_key (x : Nibble) (b : Byte) : (s.setV x b).key = s.key := rfl
@[simp] theorem State.setV_awaitingKey (x : Nibble) (b : Byte) : (s.setV x b).awaitingKey = s.awaitingKey := rfl
@[simp] theorem State.setV_loadedSize (x : Nibble) (b : Byte) : (s.setV x b).loadedSize = s.loadedSize := rfl
@[simp] theorem State.setV_tickAcc (x : Nibble) (b : Byte) : (s.setV x b).tickAcc = s.tickAcc := rfl
@[simp] theorem State.setV_params (x : Nibble) (b : Byte) : (s.setV x b).params = s.params := rfl
@[simp] theorem State.setV_draws (x : Nibble) (b : Byte) : (s.setV x b).draws = s.draws := rfl
@[simp] theorem State.setV_diags (x : Nibble) (b : Byte) : (s.setV x b).diags = s.diags := rfl

/-! ### `State.setI` -/

@[simp] theorem State.setI_v (w : Word) : (s.setI w).v = s.v := rfl
@[simp] theorem State.setI_i (w : Word) : (s.setI w).i = w := rfl
@[simp] theorem State.setI_pc (w : Word) : (s.setI w).pc = s.pc := rfl
@[simp] theorem State.setI_stack (w : Word) : (s.setI w).stack = s.stack := rfl
@[simp] theorem State.setI_sp (w : Word) : (s.setI w).sp = s.sp := rfl
@[simp] theorem State.setI_dt (w : Word) : (s.setI w).dt = s.dt := rfl
@[simp] theorem State.setI_st (w : Word) : (s.setI w).st = s.st := rfl
@[simp] theorem State.setI_mem (w : Word) : (s.setI w).mem = s.mem := rfl
@[simp] theorem State.setI_fb (w : Word) : (s.setI w).fb = s.fb := rfl
@[simp] theorem State.setI_redraw (w : Word) : (s.setI w).redraw = s.redraw := rfl
@[simp] theorem State.setI_key (w : Word) : (s.setI w).key = s.key := rfl
@[simp] theorem State.setI_awaitingKey (w : Word) : (s.setI w).awaitingKey = s.awaitingKey := rfl
@[simp] theorem State.setI_loadedSize (w : Word) : (s.setI w).loadedSize = s.loadedSize := rfl
@[simp] theorem State.setI_tickAcc (w : Word) : (s.setI w).tickAcc = s.tickAcc := rfl
@[simp] theorem State.setI_params (w : Word) : (s.setI w).params = s.params := rfl
@[simp] theorem State.setI_draws (w : Word) : (s.setI w).draws = s.draws := rfl
@[simp] theorem State.setI_diags (w : Word) : (s.setI w).diags = s.diags := rfl

/-! ### `State.setDt` -/

@[simp] theorem State.setDt_v (b : Byte) : (s.setDt b).v = s.v := rfl
@[simp] theorem State.setDt_i (b : Byte) : (s.setDt b).i = s.i := rfl
@[simp] theorem State.setDt_pc (b : Byte) : (s.setDt b).pc = s.pc := rfl
@[simp] theorem State.setDt_stack (b : Byte) : (s.setDt b).stack = s.stack := rfl
@[simp] theorem State.setDt_sp (b : Byte) : (s.setDt b).sp = s.sp := rfl
@[simp] theorem State.setDt_dt (b : Byte) : (s.setDt b).dt = b := rfl
@[simp] theorem State.setDt_st (b : Byte) : (s.setDt b).st = s.st := rfl
@[simp] theorem State.setDt_mem (b : Byte) : (s.setDt b).mem = s.mem := rfl
@[simp] theorem State.setDt_fb (b : Byte) : (s.setDt b).fb = s.fb := rfl
@[simp] theorem State.setDt_redraw (b : Byte) : (s.setDt b).redraw = s.redraw := rfl
@[simp] theorem State.setDt_key (b : Byte) : (s.setDt b).key = s.key := rfl
@[simp] theorem State.setDt_awaitingKey (b : Byte) : (s.setDt b).awaitingKey = s.awaitingKey := rfl
@[simp] theorem State.setDt_loadedSize (b : Byte) : (s.setDt b).loadedSize = s.loadedSize := rfl
@[simp] theorem State.setDt_tickAcc (b : Byte) : (s.setDt b).tickAcc = s.tickAcc := rfl
@[simp] theorem State.setDt_params (b : Byte) : (s.setDt b).params = s.params := rfl
@[simp] theorem State.setDt_draws (b : Byte) : (s.setDt b).draws = s.draws := rfl
@[simp] theorem State.setDt_diags (b : Byte) : (s.setDt b).diags = s.diags := rfl

/-! ### `State.setSt` -/

@[simp] theorem State.setSt_v (b : Byte) : (s.setSt b).v = s.v := rfl
@[simp] theorem State.setSt_i (b : Byte) : (s.setSt b).i = s.i := rfl
@[simp] theorem State.setSt_pc (b : Byte) : (s.setSt b).pc = s.pc := rfl
@[simp] theorem State.setSt_stack (b : Byte) : (s.setSt b).stack = s.stack := rfl
@[simp] theorem State.setSt_sp (b : Byte) : (s.setSt b).sp = s.sp := rfl
@[simp] theorem State.setSt_dt (b : Byte) : (s.setSt b).dt = s.dt := rfl
@[simp] theorem State.setSt_st (b : Byte) : (s.setSt b).st = b := rfl
@[simp] theorem State.setSt_mem (b : Byte) : (s.setSt b).mem = s.mem := rfl
@[simp] theorem State.setSt_fb (b : Byte) : (s.setSt b).fb = s.fb := rfl
@[simp] theorem State.setSt_redraw (b : Byte) : (s.setSt b).redraw = s.redraw := rfl
@[simp] theorem State.setSt_key (b : Byte) : (s.setSt b).key = s.key := rfl
@[simp] theorem State.setSt_awaitingKey (b : Byte) : (s.setSt b).awaitingKey = s.awaitingKey := rfl
@[simp] theorem State.setSt_loadedSize (b : Byte) : (s.setSt b).loadedSize = s.loadedSize := rfl
@[simp] theorem State.setSt_tickAcc (b : Byte) : (s.setSt b).tickAcc = s.tickAcc := rfl
@[simp] theorem State.setSt_params (b : Byte) : (s.setSt b).params = s.params := rfl
@[simp] theorem State.setSt_draws (b : Byte) : (s.setSt b).draws = s.draws := rfl
@[simp] theorem State.setSt_diags (b : Byte) : (s.setSt b).diags = s.diags := rfl

/-! ### `State.countDraw` -/

@[simp] theorem State.countDraw_v : (s.countDraw).v = s.v := rfl
@[simp] theorem State.countDraw_i : (s.countDraw).i = s.i := rfl
@[simp] theorem State.countDraw_pc : (s.countDraw).pc = s.pc := rfl
@[simp] theorem State.countDraw_stack : (s.countDraw).stack = s.stack := rfl
@[simp] theorem State.countDraw_sp : (s.countDraw).sp = s.sp := rfl
@[simp] theorem State.countDraw_dt : (s.countDraw).dt = s.dt := rfl
@[simp] theorem State.countDraw_st : (s.countDraw).st = s.st := rfl
@[simp] theorem State.countDraw_mem : (s.countDraw).mem = s.mem := rfl
@[simp] theorem State.countDraw_fb : (s.countDraw).fb = s.fb := rfl
@[simp] theorem State.countDraw_redraw : (s.countDraw).redraw = s.redraw := rfl
@[simp] theorem State.countDraw_key : (s.countDraw).key = s.key := rfl
@[simp] theorem State.countDraw_awaitingKey : (s.countDraw).awaitingKey = s.awaitingKey := rfl
@[simp] theorem State.countDraw_loadedSize : (s.countDraw).loadedSize = s.loadedSize := rfl
@[simp] theorem State.countDraw_tickAcc : (s.countDraw).tickAcc = s.tickAcc := rfl
@[simp] theorem State.countDraw_params : (s.countDraw).params = s.params := rfl
@[simp] theorem State.countDraw_draws : (s.countDraw).draws = s.draws + 1 := rfl
@[simp] theorem State.countDraw_diags : (s.countDraw).diags = s.diags := rfl

/-! ### `State.writeByte` -/

@[simp] theorem State.writeByte_v (a : Addr) (b : Byte) : (s.writeByte a b).v = s.v := rfl
@[simp] theorem State.writeByte_i (a : Addr) (b : Byte) : (s.writeByte a b).i = s.i := rfl
@[simp] theorem State.writeByte_pc (a : Addr) (b : Byte) : (s.writeByte a b).pc = s.pc := rfl
@[simp] theorem State.writeByte_stack (a : Addr) (b : Byte) : (s.writeByte a b).stack = s.stack := rfl
@[simp] theorem State.writeByte_sp (a : Addr) (b : Byte) : (s.writeByte a b).sp = s.sp := rfl
@[simp] theorem State.writeByte_dt (a : Addr) (b : Byte) : (s.writeByte a b).dt = s.dt := rfl
@[simp] theorem State.writeByte_st (a : Addr) (b : Byte) : (s.writeByte a b).st = s.st := rfl
@[simp] theorem State.writeByte_mem (a : Addr) (b : Byte) : (s.writeByte a b).mem = Memory.write s.params s.mem a b := rfl
@[simp] theorem State.writeByte_fb (a : Addr) (b : Byte) : (s.writeByte a b).fb = s.fb := rfl
@[simp] theorem State.writeByte_redraw (a : Addr) (b : Byte) : (s.writeByte a b).redraw = s.redraw := rfl
@[simp] theorem State.writeByte_key (a : Addr) (b : Byte) : (s.writeByte a b).key = s.key := rfl
@[simp] theorem State.writeByte_awaitingKey (a : Addr) (b : Byte) : (s.writeByte a b).awaitingKey = s.awaitingKey := rfl
@[simp] theorem State.writeByte_loadedSize (a : Addr) (b : Byte) : (s.writeByte a b).loadedSize = s.loadedSize := rfl
@[simp] theorem State.writeByte_tickAcc (a : Addr) (b : Byte) : (s.writeByte a b).tickAcc = s.tickAcc := rfl
@[simp] theorem State.writeByte_params (a : Addr) (b : Byte) : (s.writeByte a b).params = s.params := rfl
@[simp] theorem State.writeByte_draws (a : Addr) (b : Byte) : (s.writeByte a b).draws = s.draws := rfl
@[simp] theorem State.writeByte_diags (a : Addr) (b : Byte) : (s.writeByte a b).diags = s.diags := rfl

/-! ### `State.showFrame` -/

@[simp] theorem State.showFrame_v (f : Framebuffer) : (s.showFrame f).v = s.v := rfl
@[simp] theorem State.showFrame_i (f : Framebuffer) : (s.showFrame f).i = s.i := rfl
@[simp] theorem State.showFrame_pc (f : Framebuffer) : (s.showFrame f).pc = s.pc := rfl
@[simp] theorem State.showFrame_stack (f : Framebuffer) : (s.showFrame f).stack = s.stack := rfl
@[simp] theorem State.showFrame_sp (f : Framebuffer) : (s.showFrame f).sp = s.sp := rfl
@[simp] theorem State.showFrame_dt (f : Framebuffer) : (s.showFrame f).dt = s.dt := rfl
@[simp] theorem State.showFrame_st (f : Framebuffer) : (s.showFrame f).st = s.st := rfl
@[simp] theorem State.showFrame_mem (f : Framebuffer) : (s.showFrame f).mem = s.mem := rfl
@[simp] theorem State.showFrame_fb (f : Framebuffer) : (s.showFrame f).fb = f := rfl
@[simp] theorem State.showFrame_redraw (f : Framebuffer) : (s.showFrame f).redraw = true := rfl
@[simp] theorem State.showFrame_key (f : Framebuffer) : (s.showFrame f).key = s.key := rfl
@[simp] theorem State.showFrame_awaitingKey (f : Framebuffer) : (s.showFrame f).awaitingKey = s.awaitingKey := rfl
@[simp] theorem State.showFrame_loadedSize (f : Framebuffer) : (s.showFrame f).loadedSize = s.loadedSize := rfl
@[simp] theorem State.showFrame_tickAcc (f : Framebuffer) : (s.showFrame f).tickAcc = s.tickAcc := rfl
@[simp] theorem State.showFrame_params (f : Framebuffer) : (s.showFrame f).params = s.params := rfl
@[simp] theorem State.showFrame_draws (f : Framebuffer) : (s.showFrame f).draws = s.draws := rfl
@[simp] theorem State.showFrame_diags (f : Framebuffer) : (s.showFrame f).diags = s.diags := rfl

/-! ### `State.retire` -/

@[simp] theorem State.retire_v (n : Next) : (s.retire n).v = s.v := rfl
@[simp] theorem State.retire_i (n : Next) : (s.retire n).i = s.i := rfl
@[simp] theorem State.retire_pc (n : Next) : (s.retire n).pc = n.pcFrom s.pc := rfl
@[simp] theorem State.retire_stack (n : Next) : (s.retire n).stack = s.stack := rfl
@[simp] theorem State.retire_sp (n : Next) : (s.retire n).sp = s.sp := rfl
@[simp] theorem State.retire_dt (n : Next) : (s.retire n).dt = s.dt := rfl
@[simp] theorem State.retire_st (n : Next) : (s.retire n).st = s.st := rfl
@[simp] theorem State.retire_mem (n : Next) : (s.retire n).mem = s.mem := rfl
@[simp] theorem State.retire_fb (n : Next) : (s.retire n).fb = s.fb := rfl
@[simp] theorem State.retire_redraw (n : Next) : (s.retire n).redraw = s.redraw := rfl
@[simp] theorem State.retire_key (n : Next) : (s.retire n).key = s.key := rfl
@[simp] theorem State.retire_awaitingKey (n : Next) : (s.retire n).awaitingKey = (n == .suspend) := rfl
@[simp] theorem State.retire_loadedSize (n : Next) : (s.retire n).loadedSize = s.loadedSize := rfl
@[simp] theorem State.retire_tickAcc (n : Next) : (s.retire n).tickAcc = s.tickAcc := rfl
@[simp] theorem State.retire_params (n : Next) : (s.retire n).params = s.params := rfl
@[simp] theorem State.retire_draws (n : Next) : (s.retire n).draws = s.draws := rfl
@[simp] theorem State.retire_diags (n : Next) : (s.retire n).diags = s.diags := rfl

/-! ### `State.raise` -/

@[simp] theorem State.raise_v (d : Diagnostic) : (s.raise d).v = s.v := rfl
@[simp] theorem State.raise_i (d : Diagnostic) : (s.raise d).i = s.i := rfl
@[simp] theorem State.raise_pc (d : Diagnostic) : (s.raise d).pc = s.pc := rfl
@[simp] theorem State.raise_stack (d : Diagnostic) : (s.raise d).stack = s.stack := rfl
@[simp] theorem State.raise_sp (d : Diagnostic) : (s.raise d).sp = s.sp := rfl
@[simp] theorem State.raise_dt (d : Diagnostic) : (s.raise d).dt = s.dt := rfl
@[simp] theorem State.raise_st (d : Diagnostic) : (s.raise d).st = s.st := rfl
@[simp] theorem State.raise_mem (d : Diagnostic) : (s.raise d).mem = s.mem := rfl
@[simp] theorem State.raise_fb (d : Diagnostic) : (s.raise d).fb = s.fb := rfl
@[simp] theorem State.raise_redraw (d : Diagnostic) : (s.raise d).redraw = s.redraw := rfl
@[simp] theorem State.raise_key (d : Diagnostic) : (s.raise d).key = s.key := rfl
@[simp] theorem State.raise_awaitingKey (d : Diagnostic) : (s.raise d).awaitingKey = s.awaitingKey := rfl
@[simp] theorem State.raise_loadedSize (d : Diagnostic) : (s.raise d).loadedSize = s.loadedSize := rfl
@[simp] theorem State.raise_tickAcc (d : Diagnostic) : (s.raise d).tickAcc = s.tickAcc := rfl
@[simp] theorem State.raise_params (d : Diagnostic) : (s.raise d).params = s.params := rfl
@[simp] theorem State.raise_draws (d : Diagnostic) : (s.raise d).draws = s.draws := rfl
@[simp] theorem State.raise_diags (d : Diagnostic) : (s.raise d).diags = s.diags ++ [d] := rfl

/-! ### Registers -/

@[simp] theorem State.getV_setV (x y : Nibble) (b : Byte) :
    (s.setV x b).getV y = if x = y then b else s.getV y := by
  simp only [State.getV, State.setV, Vector.getElem_set, BitVec.toNat_inj]

@[simp] theorem State.getV_setI (w : Word) (y : Nibble) : (s.setI w).getV y = s.getV y := rfl
@[simp] theorem State.getV_setDt (b : Byte) (y : Nibble) : (s.setDt b).getV y = s.getV y := rfl
@[simp] theorem State.getV_setSt (b : Byte) (y : Nibble) : (s.setSt b).getV y = s.getV y := rfl
@[simp] theorem State.getV_countDraw (y : Nibble) : (s.countDraw).getV y = s.getV y := rfl
@[simp] theorem State.getV_writeByte (a : Addr) (b : Byte) (y : Nibble) : (s.writeByte a b).getV y = s.getV y := rfl
@[simp] theorem State.getV_showFrame (f : Framebuffer) (y : Nibble) : (s.showFrame f).getV y = s.getV y := rfl
@[simp] theorem State.getV_retire (n : Next) (y : Nibble) : (s.retire n).getV y = s.getV y := rfl
@[simp] theorem State.getV_raise (d : Diagnostic) (y : Nibble) : (s.raise d).getV y = s.getV y := rfl

/-! ### Bytes -/

@[simp] theorem State.readByte_setV (x : Nibble) (b : Byte) (c : Addr) : (s.setV x b).readByte c = s.readByte c := rfl
@[simp] theorem State.readByte_setI (w : Word) (c : Addr) : (s.setI w).readByte c = s.readByte c := rfl
@[simp] theorem State.readByte_setDt (b : Byte) (c : Addr) : (s.setDt b).readByte c = s.readByte c := rfl
@[simp] theorem State.readByte_setSt (b : Byte) (c : Addr) : (s.setSt b).readByte c = s.readByte c := rfl
@[simp] theorem State.readByte_countDraw (c : Addr) : (s.countDraw).readByte c = s.readByte c := rfl
@[simp] theorem State.readByte_showFrame (f : Framebuffer) (c : Addr) : (s.showFrame f).readByte c = s.readByte c := rfl
@[simp] theorem State.readByte_retire (n : Next) (c : Addr) : (s.retire n).readByte c = s.readByte c := rfl
@[simp] theorem State.readByte_raise (d : Diagnostic) (c : Addr) : (s.raise d).readByte c = s.readByte c := rfl

/-! ### The shared end of a diagnostic -/

@[simp] theorem State.recover_eq (d : Diagnostic) (n : Next) : s.recover d n = (s.raise d).retire n := rfl

@[simp] theorem Next.pcFrom_advance (pc : Word) : Next.pcFrom pc .advance = pc + 2#16 := rfl
@[simp] theorem Next.pcFrom_skip (pc : Word) : Next.pcFrom pc .skip = pc + 4#16 := rfl
@[simp] theorem Next.pcFrom_jump (pc t : Word) : Next.pcFrom pc (.jump t) = t := rfl
@[simp] theorem Next.pcFrom_suspend (pc : Word) : Next.pcFrom pc .suspend = pc := rfl

end Sys2Proof.Machine
end

