-- ==== Sys2Proof/Laws/Memory.lean ====
section
/-! SUPPORT. The laws of memory: a read after a write, and that every memory operation keeps the canonical form. -/

namespace Sys2Proof.Machine

theorem Memory.find_insert (m : Memory) (a k : Nat) (b : Byte) :
    Memory.find (Memory.insert a b m) k = if a = k then some b else Memory.find m k := by
  induction m with
  | nil => simp [Memory.insert, Memory.find]
  | cons c m ih =>
    obtain ⟨j, d⟩ := c
    simp only [Memory.insert]
    split
    · simp [Memory.find]
    · split
      · subst_vars; simp only [Memory.find]; split <;> rfl
      · simp only [Memory.find, ih]; split
        · subst_vars; simp_all
        · rfl

theorem Memory.find_erase (m : Memory) (a k : Nat) :
    Memory.find (Memory.erase a m) k = if a = k then none else Memory.find m k := by
  induction m with
  | nil => simp [Memory.erase, Memory.find]
  | cons c m ih =>
    obtain ⟨j, d⟩ := c
    by_cases hj : j = a
    · subst hj; simp only [Memory.erase, Memory.find, ih, if_true]; split <;> rfl
    · simp only [Memory.erase, hj, if_false, Memory.find, ih]; split
      · subst_vars; simp_all [eq_comm]
      · rfl

/-- Everything a write does to the bytes that are read (R50, R58). -/
theorem Memory.read_write (p : Params) (m : Memory) (a c : Addr) (b : Byte) :
    Memory.read p (Memory.write p m a b) c = if a = c then b else Memory.read p m c := by
  by_cases h : a = c
  · subst h
    by_cases hb : b = Memory.background p a <;>
      simp [Memory.read, Memory.write, hb, Memory.find_insert, Memory.find_erase]
  · have hn : ¬ a.toNat = c.toNat := fun e => h (BitVec.eq_of_toNat_eq e)
    by_cases hb : b = Memory.background p a <;>
      simp [Memory.read, Memory.write, hb, Memory.find_insert, Memory.find_erase, h, hn]

theorem Memory.mem_erase {m : Memory} {a : Nat} {c : Host.Cell} (h : c ∈ Memory.erase a m) : c ∈ m := by
  induction m with
  | nil => simp [Memory.erase] at h
  | cons d m ih =>
    obtain ⟨k, e⟩ := d
    simp only [Memory.erase] at h
    split at h
    · exact .tail _ (ih h)
    · rcases List.mem_cons.1 h with rfl | h
      · exact .head _
      · exact .tail _ (ih h)

theorem Memory.mem_insert {m : Memory} {a : Nat} {b : Byte} {c : Host.Cell} (h : c ∈ Memory.insert a b m) :
    c = (a, b) ∨ c ∈ m := by
  induction m with
  | nil => simpa [Memory.insert] using h
  | cons d m ih =>
    obtain ⟨k, e⟩ := d
    simp only [Memory.insert] at h
    split at h
    · simpa using h
    · split at h
      · rcases List.mem_cons.1 h with h | h
        · exact .inl h
        · exact .inr (.tail _ h)
      · rcases List.mem_cons.1 h with rfl | h
        · exact .inr (.head _)
        · exact (ih h).imp_right (.tail _)

theorem Memory.erase_rising {m : Memory} (a : Nat) (h : (m.map Prod.fst).Pairwise (· < ·)) :
    ((Memory.erase a m).map Prod.fst).Pairwise (· < ·) := by
  induction m with
  | nil => simp [Memory.erase]
  | cons d m ih =>
    obtain ⟨k, e⟩ := d
    obtain ⟨hk, hm⟩ := List.pairwise_cons.1 h
    simp only [Memory.erase]
    split
    · exact ih hm
    · refine List.pairwise_cons.2 ⟨fun x hx => ?_, ih hm⟩
      obtain ⟨c, hc, rfl⟩ := List.mem_map.1 hx
      exact hk _ (List.mem_map_of_mem (Memory.mem_erase hc))

theorem Memory.insert_rising {m : Memory} (a : Nat) (b : Byte) (h : (m.map Prod.fst).Pairwise (· < ·)) :
    ((Memory.insert a b m).map Prod.fst).Pairwise (· < ·) := by
  induction m with
  | nil => simp [Memory.insert]
  | cons d m ih =>
    obtain ⟨k, e⟩ := d
    obtain ⟨hk, hm⟩ := List.pairwise_cons.1 h
    simp only [Memory.insert]
    split
    · refine List.pairwise_cons.2 ⟨fun x hx => ?_, h⟩
      rcases List.mem_cons.1 hx with rfl | hx
      · assumption
      · exact lt_trans (by assumption) (hk _ hx)
    · split
      · subst_vars; exact List.pairwise_cons.2 ⟨hk, hm⟩
      · refine List.pairwise_cons.2 ⟨fun x hx => ?_, ih hm⟩
        obtain ⟨c, hc, rfl⟩ := List.mem_map.1 hx
        rcases Memory.mem_insert hc with rfl | hc
        · change k < a; omega
        · exact hk _ (List.mem_map_of_mem hc)

/-- A write keeps the canonical form. -/
theorem Memory.write_wf {p : Params} {m : Memory} (a : Addr) (b : Byte) (h : Memory.wf p m) :
    Memory.wf p (Memory.write p m a b) := by
  unfold Memory.write
  split
  · exact ⟨Memory.erase_rising _ h.1, fun c hc => h.2 c (Memory.mem_erase hc)⟩
  · refine ⟨Memory.insert_rising _ _ h.1, fun c hc => ?_⟩
    rcases Memory.mem_insert hc with rfl | hc
    · exact ⟨a.isLt, by simpa using ‹_›⟩
    · exact h.2 c hc

/-- The empty list, memory right after reset, is in the canonical form. -/
theorem Memory.wf_nil (p : Params) : Memory.wf p [] := by simp [Memory.wf]

/-- Everything `writeByte` does to the bytes that are read. -/
@[simp] theorem State.readByte_writeByte (s : State) (a c : Addr) (b : Byte) :
    (s.writeByte a b).readByte c = if a = c then b else s.readByte c :=
  Memory.read_write ..

/-- The glyph bytes an unlisted address reads as (R39, R250). -/
theorem Memory.background_font (p : Params) (j : Fin 80) :
    Memory.background p (BitVec.ofNat 12 (p.fontBase.addr + j.val)) = p.fontData[j] := by
  have hb : p.fontBase.addr ≤ 0x50 := by cases p.fontBase <;> decide
  have e : (BitVec.ofNat 12 (p.fontBase.addr + j.val)).toNat = p.fontBase.addr + j.val := by
    simp only [BitVec.toNat_ofNat]; omega
  simp [Memory.background, e]

/-- The zeros an unlisted address reads as (R39, decision D16). -/
theorem Memory.background_zero (p : Params) (a : Addr)
    (h : a.toNat < p.fontBase.addr ∨ p.fontBase.addr + 80 ≤ a.toNat) : Memory.background p a = 0#8 := by
  rw [Memory.background, dif_neg (by omega)]

/-- Reset memory reads as its reset contents (R250). -/
theorem State.readByte_resetOp (s : State) (a : Addr) : s.resetOp.readByte a = Memory.background s.params a := rfl

end Sys2Proof.Machine
end

