-- ==== Sys2Proof/Laws/Operands.lean ====
section
/-! SUPPORT. What the operand forms and their checks can do: data addresses and their range check (43_index_memory.md
R166), the flag write (42_alu.md R140), the return stack (10_state.md R26). -/

namespace Sys2Proof.Machine

variable (s : State)

/-- Where the check passes under `skip`, a data address is `ea(k)` itself (R166). -/
theorem State.dataAddr_toNat {k : Nat} (h : s.ea k ≤ 0xFFF) : (s.dataAddr k).toNat = s.ea k := by
  simp only [State.dataAddr, BitVec.toNat_ofNat]; omega

/-- The data address is `ea(k) mod 4096` (R166, `wrap`). -/
theorem State.dataAddr_toNat_mod (k : Nat) : (s.dataAddr k).toNat = s.ea k % 4096 := by
  simp [State.dataAddr]

/-- Two offsets below 4096 reach one address only if they are one offset. -/
theorem State.dataAddr_inj {j k : Nat} (hj : j < 4096) (hk : k < 4096) : s.dataAddr j = s.dataAddr k ↔ j = k := by
  constructor
  · intro h
    have := congrArg BitVec.toNat h
    simp only [State.dataAddr_toNat_mod, State.ea] at this; omega
  · rintro rfl; rfl

/-- `inRange` in numbers (R166). -/
theorem State.inRange_iff (c : Nat) :
    s.inRange c = true ↔ s.params.dataOob = .wrap ∨ c = 0 ∨ s.i.toNat + (c - 1) ≤ 0xFFF := by
  simp only [State.inRange, Bool.or_eq_true, beq_iff_eq, decide_eq_true_eq, or_assoc]
  rfl

/-- Where the check fails, the first address outside memory is I, or 0x1000 (R166). -/
theorem State.firstOut_of_not_inRange {c : Nat} (h : s.inRange c = false) :
    s.firstOut c = some (max s.i.toNat 0x1000) := by
  have h' : ¬(s.params.dataOob = .wrap ∨ c = 0 ∨ s.i.toNat + (c - 1) ≤ 0xFFF) := by
    rw [← State.inRange_iff]; simp [h]
  simp only [not_or] at h'
  obtain ⟨-, h0, hlast⟩ := h'
  obtain ⟨k, hk⟩ : ∃ k, k = max s.i.toNat 0x1000 - s.i.toNat := ⟨_, rfl⟩
  simp only [State.firstOut, List.find?_map, Option.map_eq_some_iff]
  refine ⟨k, ?_, by unfold State.ea; omega⟩
  rw [List.find?_range_eq_some]
  refine ⟨?_, List.mem_range.2 (by omega), fun j hj => ?_⟩
  · simp only [Function.comp, decide_eq_true_eq]; unfold State.ea; omega
  · simp only [Function.comp, Bool.not_eq_true', decide_eq_false_iff_not]; unfold State.ea; omega

/-- Everything the range check can do (R56, R166): the instruction completes, or it records the first address outside
memory and has no effect. -/
theorem State.checkData_eq (c : Nat) (body : State) :
    s.checkData c body =
      if s.inRange c then body.retire .advance
      else (s.raise (.memoryAccessOutOfBounds s.pc (max s.i.toNat 0x1000))).retire .advance := by
  unfold State.checkData
  cases h : s.inRange c
  · simp [State.firstOut_of_not_inRange s h]
  · rfl

/-- Everything the flag write does to the registers (R140). -/
theorem State.getV_setRF (x y : Nibble) (r : Byte) (f : Bool) :
    (s.setRF x r f).getV y =
      if y = 0xF#4 then (if x = 0xF#4 ∧ s.params.flagOrder = .flagFirst then r else flagByte f)
      else if x = y then r else s.getV y := by
  unfold State.setRF
  by_cases hy : y = 0xF#4
  · subst hy
    cases h : s.params.flagOrder <;> by_cases hx : x = 0xF#4 <;> simp [State.getV_setV, hx]
  · have hy' : 0xF#4 ≠ y := fun e => hy e.symm
    cases h : s.params.flagOrder <;> simp only [State.getV_setV, if_neg hy, if_neg hy']

/-- The flag write changes registers only. -/
theorem State.setRF_only (x : Nibble) (r : Byte) (f : Bool) :
    ∃ v, s.setRF x r f = { s with v := v } := by
  unfold State.setRF; cases s.params.flagOrder <;> exact ⟨_, rfl⟩

/-- A push on a stack that is not full (R26). -/
theorem State.push_of_lt (a : Word) (h : s.sp.val < 16) :
    s.push a = some { s with stack := s.stack.set s.sp.val a h, sp := ⟨s.sp.val + 1, by omega⟩ } := by
  simp [State.push, h]

/-- A push on a full stack (R124). -/
theorem State.push_of_full (a : Word) (h : s.sp.val = 16) : s.push a = none := by
  simp [State.push, h]

/-- A pop of a stack that is not empty (R26). -/
theorem State.pop_of_pos (h : 0 < s.sp.val) :
    s.pop = some (s.stack[s.sp.val - 1]'(by omega), { s with sp := ⟨s.sp.val - 1, by omega⟩ }) := by
  simp [State.pop, h]

/-- A pop of an empty stack (R122). -/
theorem State.pop_of_empty (h : s.sp.val = 0) : s.pop = none := by
  simp [State.pop, h]

end Sys2Proof.Machine
end

