-- ==== Sys2Proof/Laws/Blocks.lean ====
section
/-! SUPPORT. What the stores of FX33 and the loops of FX55 and FX65 do (43_index_memory.md R163, R164, R165). -/

namespace Sys2Proof.Machine

variable (s : State)

/-- A byte store changes memory only; the canonical form is kept. -/
theorem State.writeByte_wf (a : Addr) (b : Byte) (h : Memory.wf s.params s.mem) :
    Memory.wf (s.writeByte a b).params (s.writeByte a b).mem :=
  Memory.write_wf a b h

/-- The stores of FX33 change memory only. -/
theorem State.storeDigits_only (b : Byte) : ∃ m, s.storeDigits b = { s with mem := m } := ⟨_, rfl⟩

/-- The stores of FX33 keep the canonical form. -/
theorem State.storeDigits_wf (b : Byte) (h : Memory.wf s.params s.mem) :
    Memory.wf (s.storeDigits b).params (s.storeDigits b).mem :=
  State.writeByte_wf _ _ _ (State.writeByte_wf _ _ _ (State.writeByte_wf _ _ _ h))

/-- A byte no store of FX33 reaches is kept. -/
theorem State.storeDigits_other (b : Byte) (a : Addr) (h : ∀ k < 3, s.dataAddr k ≠ a) :
    (s.storeDigits b).readByte a = s.readByte a := by
  simp [State.storeDigits, h 0, h 1, h 2]

/-- Each store of FX33 stays: digit `k` from the left at address `k`. -/
theorem State.storeDigits_at (b : Byte) {k : Nat} (hk : k < 3) :
    ((s.storeDigits b).readByte (s.dataAddr k)).toNat = b.toNat / 10 ^ (2 - k) % 10 := by
  have hb := b.isLt
  obtain rfl | rfl | rfl : k = 0 ∨ k = 1 ∨ k = 2 := by omega
  all_goals
    simp only [State.storeDigits, State.readByte_writeByte, State.dataAddr_inj s, Nat.reduceLT, Nat.reduceEqDiff,
      if_true, if_false, BitVec.toNat_ofNat, Nat.reduceSub, Nat.reducePow]
    omega

/-- The stores of FX55 change memory only. -/
theorem State.storeBlock_only (c : Nat) : ∃ m, s.storeBlock c = { s with mem := m } := by
  induction c with
  | zero => exact ⟨s.mem, rfl⟩
  | succ c ih => obtain ⟨m, hm⟩ := ih; simp only [State.storeBlock, hm]; exact ⟨_, rfl⟩

/-- The stores of FX55 keep the canonical form. -/
theorem State.storeBlock_wf (c : Nat) (h : Memory.wf s.params s.mem) :
    Memory.wf (s.storeBlock c).params (s.storeBlock c).mem := by
  induction c with
  | zero => exact h
  | succ c ih => exact State.writeByte_wf _ _ _ ih

/-- A byte no store of FX55 reaches is kept. -/
theorem State.storeBlock_other (c : Nat) (a : Addr) (h : ∀ k < c, s.dataAddr k ≠ a) :
    (s.storeBlock c).readByte a = s.readByte a := by
  induction c with
  | zero => rfl
  | succ c ih =>
    rw [State.storeBlock, State.readByte_writeByte, if_neg (h c (Nat.lt_succ_self c))]
    exact ih fun k hk => h k (Nat.lt_succ_of_lt hk)

/-- Each store of FX55 stays: no later one reaches its address. -/
theorem State.storeBlock_at {c k : Nat} (hc : c ≤ 16) (hk : k < c) :
    (s.storeBlock c).readByte (s.dataAddr k) = s.getV (BitVec.ofNat 4 k) := by
  induction c with
  | zero => omega
  | succ c ih =>
    rw [State.storeBlock, State.readByte_writeByte]
    by_cases h : k = c
    · simp [h]
    · rw [if_neg (by rw [State.dataAddr_inj s (by omega) (by omega)]; omega)]
      exact ih (by omega) (by omega)

/-- The loads of FX65 change registers only. -/
theorem State.loadBlock_only (c : Nat) : ∃ v, s.loadBlock c = { s with v := v } := by
  induction c with
  | zero => exact ⟨s.v, rfl⟩
  | succ c ih => obtain ⟨v, hv⟩ := ih; simp only [State.loadBlock, hv]; exact ⟨_, rfl⟩

/-- Everything the loads of FX65 do to the registers. -/
theorem State.getV_loadBlock {c : Nat} (hc : c ≤ 16) (y : Nibble) :
    (s.loadBlock c).getV y = if y.toNat < c then s.readByte (s.dataAddr y.toNat) else s.getV y := by
  induction c with
  | zero => simp [State.loadBlock]
  | succ c ih =>
    rw [State.loadBlock, State.getV_setV, ih (by omega)]
    by_cases h : BitVec.ofNat 4 c = y
    · subst h
      have : c % 16 = c := Nat.mod_eq_of_lt (by omega)
      simp [this]
    · have hne : y.toNat ≠ c := by
        rintro rfl; exact h (by simp)
      rw [if_neg h]
      by_cases h2 : y.toNat < c
      · rw [if_pos h2, if_pos (by omega)]
      · rw [if_neg h2, if_neg (by omega)]

end Sys2Proof.Machine
end

