-- ==== Sys2Proof/Laws/ControlFlow.lean ====
section
/-! SUPPORT. The two cases of a return and of a call (41_control_flow.md R122, R124). -/

namespace Sys2Proof.Machine

variable (s : State)

theorem execRet_of_pos (h : 0 < s.sp.val) :
    execRet s = .next (State.retire { s with sp := ⟨s.sp.val - 1, by omega⟩ }
      (.jump (s.stack[s.sp.val - 1]'(by omega)))) := by
  unfold execRet; rw [State.pop_of_pos s h]

theorem execRet_of_empty (h : s.sp.val = 0) : execRet s = .next (s.recover (.stackUnderflow s.pc) .advance) := by
  unfold execRet; rw [State.pop_of_empty s h]

theorem execCall_of_lt (nnn : Addr) (h : s.sp.val < 16) :
    execCall nnn s = .next (State.retire
      { s with stack := s.stack.set s.sp.val (s.pc + 2#16) h, sp := ⟨s.sp.val + 1, by omega⟩ }
      (.jump (addrOperand nnn))) := by
  unfold execCall; rw [State.push_of_lt s _ h]

theorem execCall_of_full (nnn : Addr) (h : s.sp.val = 16) :
    execCall nnn s = .next (s.recover (.stackOverflow s.pc) .advance) := by
  unfold execCall; rw [State.push_of_full s _ h]

end Sys2Proof.Machine
end

