-- ==== Sys2Proof/Laws/Decode.lean ====
section
/-! SUPPORT. The fields of an encoded word, one lemma per field and operand form (30_encoding.md R81, R82), and the
two bytes of a word (20_memory.md R51). -/

namespace Sys2Proof

/-- `a ++ b` as a number, `a` in the high bits (R9). -/
theorem toNat_concat {m k : Nat} (a : BitVec m) (b : BitVec k) : (a ++ b).toNat = a.toNat * 2 ^ k + b.toNat := by
  rw [BitVec.toNat_append, ← Nat.shiftLeft_add_eq_or_of_lt b.isLt, Nat.shiftLeft_eq]

/-- A field of a word as a number (R9). -/
theorem toNat_field {w : Nat} (a : BitVec w) (lo len : Nat) :
    (a.extractLsb' lo len).toNat = a.toNat / 2 ^ lo % 2 ^ len := by
  rw [BitVec.extractLsb'_toNat, Nat.shiftRight_eq_div_pow]

@[simp] theorem fieldOp_formN (op : Nibble) (nnn : Addr) : fieldOp (op ++ nnn) = op := by
  apply BitVec.eq_of_toNat_eq
  simp only [fieldOp, toNat_field, toNat_concat]
  omega

@[simp] theorem fieldNnn_formN (op : Nibble) (nnn : Addr) : fieldNnn (op ++ nnn) = nnn := by
  apply BitVec.eq_of_toNat_eq
  simp only [fieldNnn, toNat_field, toNat_concat]
  omega

@[simp] theorem fieldOp_formXK (op : Nibble) (x : Nibble) (kk : Byte) : fieldOp (op ++ x ++ kk) = op := by
  apply BitVec.eq_of_toNat_eq
  simp only [fieldOp, toNat_field, toNat_concat]
  omega

@[simp] theorem fieldX_formXK (op : Nibble) (x : Nibble) (kk : Byte) : fieldX (op ++ x ++ kk) = x := by
  apply BitVec.eq_of_toNat_eq
  simp only [fieldX, toNat_field, toNat_concat]
  omega

@[simp] theorem fieldKk_formXK (op : Nibble) (x : Nibble) (kk : Byte) : fieldKk (op ++ x ++ kk) = kk := by
  apply BitVec.eq_of_toNat_eq
  simp only [fieldKk, toNat_field, toNat_concat]
  omega

@[simp] theorem fieldOp_formXYN (op : Nibble) (x : Nibble) (y : Nibble) (n : Nibble) : fieldOp (op ++ x ++ y ++ n) = op := by
  apply BitVec.eq_of_toNat_eq
  simp only [fieldOp, toNat_field, toNat_concat]
  omega

@[simp] theorem fieldX_formXYN (op : Nibble) (x : Nibble) (y : Nibble) (n : Nibble) : fieldX (op ++ x ++ y ++ n) = x := by
  apply BitVec.eq_of_toNat_eq
  simp only [fieldX, toNat_field, toNat_concat]
  omega

@[simp] theorem fieldY_formXYN (op : Nibble) (x : Nibble) (y : Nibble) (n : Nibble) : fieldY (op ++ x ++ y ++ n) = y := by
  apply BitVec.eq_of_toNat_eq
  simp only [fieldY, toNat_field, toNat_concat]
  omega

@[simp] theorem fieldN_formXYN (op : Nibble) (x : Nibble) (y : Nibble) (n : Nibble) : fieldN (op ++ x ++ y ++ n) = n := by
  apply BitVec.eq_of_toNat_eq
  simp only [fieldN, toNat_field, toNat_concat]
  omega

/-- Laid out in memory order and read back big-endian, a word is itself (R51). -/
@[simp] theorem wordOfBytes_bytes (w : Word) : wordOfBytes (firstByte w) (secondByte w) = w := by
  apply BitVec.eq_of_toNat_eq
  simp only [wordOfBytes, firstByte, secondByte, toNat_field, toNat_concat]
  omega

@[simp] theorem firstByte_wordOfBytes (a : Byte) (b : Byte) : firstByte (wordOfBytes a b) = a := by
  apply BitVec.eq_of_toNat_eq
  simp only [wordOfBytes, firstByte, toNat_field, toNat_concat]
  omega

@[simp] theorem secondByte_wordOfBytes (a : Byte) (b : Byte) : secondByte (wordOfBytes a b) = b := by
  apply BitVec.eq_of_toNat_eq
  simp only [wordOfBytes, secondByte, toNat_field, toNat_concat]
  omega

/-! ### A word as its fields (R81, R82) -/

theorem word_formN (w : Word) : w = fieldOp w ++ fieldNnn w := by
  apply BitVec.eq_of_toNat_eq
  rw [toNat_concat]; simp only [fieldOp, fieldNnn, toNat_field]; omega

theorem word_formXK (w : Word) : w = fieldOp w ++ fieldX w ++ fieldKk w := by
  apply BitVec.eq_of_toNat_eq
  rw [toNat_concat, toNat_concat]; simp only [fieldOp, fieldX, fieldKk, toNat_field]; omega

theorem word_formXYN (w : Word) : w = fieldOp w ++ fieldX w ++ fieldY w ++ fieldN w := by
  apply BitVec.eq_of_toNat_eq
  rw [toNat_concat, toNat_concat, toNat_concat]
  simp only [fieldOp, fieldX, fieldY, fieldN, toNat_field]; omega

/-- The sixteen values of a 4-bit field. -/
theorem nibble_cases (k : Nibble) :
    k = 0#4 ∨ k = 1#4 ∨ k = 2#4 ∨ k = 3#4 ∨ k = 4#4 ∨ k = 5#4 ∨ k = 6#4 ∨ k = 7#4 ∨ k = 8#4 ∨ k = 9#4 ∨
      k = 10#4 ∨ k = 11#4 ∨ k = 12#4 ∨ k = 13#4 ∨ k = 14#4 ∨ k = 15#4 := by
  revert k; decide

/-- The only reason `decode` refuses a word (R90). -/
theorem decode_error {w : Word} {r : Reject} (h : decode w = .error r) : r = .unknownOpcode w := by
  simp only [decode, decodeFamily8, decodeFamilyE, decodeFamilyF] at h
  repeat' split at h
  all_goals first | (cases h; rfl) | cases h

/-! ### The table's masks on a word written field by field (R103) -/

theorem concat_and {m k : Nat} (a c : BitVec m) (b d : BitVec k) :
    (a ++ b) &&& (c ++ d) = (a &&& c) ++ (b &&& d) := by
  ext i hi; simp only [BitVec.getElem_and, BitVec.getElem_append]; split <;> simp

theorem formN_and_op (op : Nibble) (nnn : Addr) : ((op ++ nnn : Word) &&& 0xF000#16) = op ++ 0#12 := by
  rw [show 0xF000#16 = 0xF#4 ++ 0#12 from rfl]
  refine (concat_and ..).trans ?_
  rw [show op &&& 0xF#4 = op from BitVec.and_allOnes, BitVec.and_zero]

theorem formXK_and_op (op x : Nibble) (kk : Byte) : ((op ++ x ++ kk : Word) &&& 0xF000#16) = op ++ 0#4 ++ 0#8 := by
  rw [show 0xF000#16 = 0xF#4 ++ 0#4 ++ 0#8 from rfl]
  refine (concat_and ..).trans ?_
  rw [concat_and, show op &&& 0xF#4 = op from BitVec.and_allOnes, BitVec.and_zero, BitVec.and_zero]

theorem formXK_and_sub (op x : Nibble) (kk : Byte) : ((op ++ x ++ kk : Word) &&& 0xF0FF#16) = op ++ 0#4 ++ kk := by
  rw [show 0xF0FF#16 = 0xF#4 ++ 0#4 ++ 0xFF#8 from rfl]
  refine (concat_and ..).trans ?_
  rw [concat_and, show op &&& 0xF#4 = op from BitVec.and_allOnes, BitVec.and_zero,
    show kk &&& 0xFF#8 = kk from BitVec.and_allOnes]

theorem formXYN_and_op (op x y n : Nibble) :
    ((op ++ x ++ y ++ n : Word) &&& 0xF000#16) = op ++ 0#4 ++ 0#4 ++ 0#4 := by
  rw [show 0xF000#16 = 0xF#4 ++ 0#4 ++ 0#4 ++ 0#4 from rfl]
  refine (concat_and ..).trans ?_
  rw [concat_and, concat_and, show op &&& 0xF#4 = op from BitVec.and_allOnes, BitVec.and_zero, BitVec.and_zero,
    BitVec.and_zero]

theorem formXYN_and_sub (op x y n : Nibble) :
    ((op ++ x ++ y ++ n : Word) &&& 0xF00F#16) = op ++ 0#4 ++ 0#4 ++ n := by
  rw [show 0xF00F#16 = 0xF#4 ++ 0#4 ++ 0#4 ++ 0xF#4 from rfl]
  refine (concat_and ..).trans ?_
  rw [concat_and, concat_and, show op &&& 0xF#4 = op from BitVec.and_allOnes, BitVec.and_zero, BitVec.and_zero,
    show n &&& 0xF#4 = n from BitVec.and_allOnes]

end Sys2Proof
end

