-- ==== Sys2Proof/Laws/Display.lean ====
section
/-! SUPPORT. What the framebuffer operations do to a cell (10_state.md R29, 45_display_keys.md R190, R191). -/

namespace Sys2Proof.Machine

/-- Everything `flip` does to the cells (R191): one cell is exclusive-ored with 1. -/
theorem Framebuffer.pixel_flip (fb : Framebuffer) (cx cy px py : Nat) :
    Framebuffer.pixel (Framebuffer.flip fb cx cy) px py =
      (Framebuffer.pixel fb px py ^^ decide (cx % 64 = px % 64 ∧ cy % 32 = py % 32)) := by
  have hx : cx % 64 < 64 := Nat.mod_lt _ (by decide)
  unfold Framebuffer.pixel Framebuffer.flip
  rw [Vector.getElem_set]
  by_cases h : cy % 32 = py % 32
  · simp [h, BitVec.getLsbD_twoPow, hx]
  · simp [h]

/-- A cell is found at its column and row modulo the size (R29). -/
theorem Framebuffer.pixel_mod (fb : Framebuffer) (px py : Nat) :
    Framebuffer.pixel fb (px % 64) (py % 32) = Framebuffer.pixel fb px py := by
  simp only [Framebuffer.pixel, Nat.mod_mod]

/-- The cell the host reads at index `py * 64 + px` (R29, R230). -/
theorem State.readCell_index (s : State) {px py : Nat} (hx : px < 64) :
    s.readCell (py * 64 + px) = Framebuffer.pixel s.fb px py := by
  rw [State.readCell, Framebuffer.cell, show (py * 64 + px) % 64 = px by omega,
    show (py * 64 + px) / 64 = py by omega]

/-- A blank framebuffer's cells are 0 (R190). -/
@[simp] theorem Framebuffer.pixel_blank (px py : Nat) : Framebuffer.pixel Framebuffer.blank px py = false := by
  simp [Framebuffer.pixel, Framebuffer.blank]

/-- Two framebuffers with the same cells are the same framebuffer. -/
theorem Framebuffer.ext_pixel {a b : Framebuffer}
    (h : ∀ px < 64, ∀ py < 32, Framebuffer.pixel a px py = Framebuffer.pixel b px py) : a = b := by
  refine Vector.ext fun py hpy => BitVec.eq_of_getLsbD_eq fun px hpx => ?_
  have := h px hpx py hpy
  simpa only [Framebuffer.pixel, Nat.mod_eq_of_lt hpx, Nat.mod_eq_of_lt hpy] using this

@[simp] theorem Canvas.plot_pixel (cv : Canvas) (cx cy px py : Nat) :
    Framebuffer.pixel (cv.plot cx cy).fb px py =
      (Framebuffer.pixel cv.fb px py ^^ decide (cx % 64 = px % 64 ∧ cy % 32 = py % 32)) :=
  Framebuffer.pixel_flip ..

@[simp] theorem Canvas.plot_collision (cv : Canvas) (cx cy : Nat) :
    (cv.plot cx cy).collision = (cv.collision || Framebuffer.pixel cv.fb cx cy) := rfl

/-- A row of another height keeps its cells while a sprite row is drawn. -/
theorem Canvas.drawColumns_other (cv : Canvas) (b : Byte) (cx cy px py : Nat) (h : cy % 32 ≠ py % 32) (c : Nat) :
    Framebuffer.pixel (cv.drawColumns b cx cy c).fb px py = Framebuffer.pixel cv.fb px py := by
  induction c with
  | zero => rfl
  | succ c ih => simp only [Canvas.drawColumns]; split <;> simp [ih, h]

/-- Everything the first `c` columns of a sprite row do to the cells of their row: those under a set bit change. -/
theorem Canvas.drawColumns_pixel (cv : Canvas) (b : Byte) (cx cy px : Nat) {c : Nat} (hc : c ≤ 8) :
    Framebuffer.pixel (cv.drawColumns b cx cy c).fb px cy =
      (Framebuffer.pixel cv.fb px cy ^^ decide (∃ k < c, b.getLsbD (7 - k) = true ∧ (cx + k) % 64 = px % 64)) := by
  induction c with
  | zero => simp [Canvas.drawColumns]
  | succ c ih =>
    simp only [Canvas.drawColumns, Nat.lt_succ_iff_lt_or_eq, or_and_right, exists_or, exists_eq_left]
    by_cases hb : b.getLsbD (7 - c) = true
    · by_cases hx : (cx + c) % 64 = px % 64
      · have hno : ¬∃ k < c, b.getLsbD (7 - k) = true ∧ (cx + k) % 64 = px % 64 := by
          rintro ⟨k, hk, -, hk'⟩; omega
        simp [hb, hx, hno, ih (Nat.le_of_succ_le hc)]
      · simp [hb, hx, ih (Nat.le_of_succ_le hc)]
    · simp [hb, ih (Nat.le_of_succ_le hc)]

/-- The collision of the first `c` columns of a sprite row: a set bit over a lit cell. -/
theorem Canvas.drawColumns_collision (cv : Canvas) (b : Byte) (cx cy : Nat) {c : Nat} (hc : c ≤ 8) :
    (cv.drawColumns b cx cy c).collision =
      (cv.collision ||
        decide (∃ k < c, b.getLsbD (7 - k) = true ∧ Framebuffer.pixel cv.fb (cx + k) cy = true)) := by
  induction c with
  | zero => simp [Canvas.drawColumns]
  | succ c ih =>
    have hno : ¬∃ k < c, b.getLsbD (7 - k) = true ∧ (cx + k) % 64 = (cx + c) % 64 := by
      rintro ⟨k, hk, -, hk'⟩; omega
    have hpix := Canvas.drawColumns_pixel cv b cx cy (cx + c) (Nat.le_of_succ_le hc)
    simp only [hno, decide_false, Bool.xor_false] at hpix
    simp only [Canvas.drawColumns, Nat.lt_succ_iff_lt_or_eq, or_and_right, exists_or, exists_eq_left]
    by_cases hb : b.getLsbD (7 - c) = true
    · simp [hb, hpix, ih (Nat.le_of_succ_le hc), Bool.or_assoc]
    · simp [hb, ih (Nat.le_of_succ_le hc)]

/-- Everything the first `r` rows of a sprite do to the cells (R191): those under a set bit change. -/
theorem State.drawRows_pixel (s : State) (cx cy px py : Nat) {r : Nat} (hr : r ≤ 32) :
    Framebuffer.pixel (s.drawRows cx cy r).fb px py = true ↔
      ¬(Framebuffer.pixel s.fb px py = true ↔ SpriteCovers s cx cy r (px % 64) (py % 32)) := by
  induction r with
  | zero => simp [State.drawRows, SpriteCovers]
  | succ r ih =>
    have ih := ih (Nat.le_of_succ_le hr)
    rw [State.drawRows]
    by_cases h : (cy + r) % 32 = py % 32
    · have hno : ¬SpriteCovers s cx cy r (px % 64) (py % 32) := by rintro ⟨k, hk, -, -, -, -, hk'⟩; omega
      have hsame : ∀ fb : Framebuffer, Framebuffer.pixel fb px py = Framebuffer.pixel fb px (cy + r) := by
        intro fb; simp only [Framebuffer.pixel, h]
      have hrow : SpriteCovers s cx cy (r + 1) (px % 64) (py % 32) ↔
          ∃ k < 8, (s.readByte (s.dataAddr r)).getLsbD (7 - k) = true ∧ (cx + k) % 64 = px % 64 := by
        refine ⟨?_, fun ⟨c, hc, hb, hx⟩ => ⟨r, Nat.lt_succ_self r, c, hc, hb, hx, h⟩⟩
        rintro ⟨k, hk, c, hc, hb, hx, hy⟩
        have : k = r := by omega
        subst this; exact ⟨c, hc, hb, hx⟩
      have ih' : Framebuffer.pixel (s.drawRows cx cy r).fb px py = Framebuffer.pixel s.fb px py := by
        rw [Bool.eq_iff_iff, ih]; simp [hno]
      rw [hsame, Canvas.drawColumns_pixel _ _ _ _ _ (Nat.le_refl 8), ← hsame, ih', hrow]
      cases Framebuffer.pixel s.fb px py <;> simp
    · have hrow : SpriteCovers s cx cy (r + 1) (px % 64) (py % 32) ↔
          SpriteCovers s cx cy r (px % 64) (py % 32) := by
        refine ⟨?_, fun ⟨k, hk, rest⟩ => ⟨k, Nat.lt_succ_of_lt hk, rest⟩⟩
        rintro ⟨k, hk, c, hc, hb, hx, hy⟩
        have : k ≠ r := by rintro rfl; exact h hy
        exact ⟨k, by omega, c, hc, hb, hx, hy⟩
      rw [Canvas.drawColumns_other _ _ _ _ _ _ h, ih, hrow]

/-- The collision of the first `r` rows of a sprite (R191): a set bit over a cell that was lit before the draw. -/
theorem State.drawRows_collision (s : State) (cx cy : Nat) {r : Nat} (hr : r ≤ 32) :
    (s.drawRows cx cy r).collision = true ↔
      ∃ k < r, ∃ c < 8, (s.readByte (s.dataAddr k)).getLsbD (7 - c) = true ∧
        Framebuffer.pixel s.fb (cx + c) (cy + k) = true := by
  induction r with
  | zero => simp [State.drawRows]
  | succ r ih =>
    have hpix : ∀ c, Framebuffer.pixel (s.drawRows cx cy r).fb (cx + c) (cy + r) =
        Framebuffer.pixel s.fb (cx + c) (cy + r) := by
      intro c
      have hno : ¬SpriteCovers s cx cy r ((cx + c) % 64) ((cy + r) % 32) := by
        rintro ⟨k, hk, -, -, -, -, hk'⟩; omega
      rw [Bool.eq_iff_iff, State.drawRows_pixel s _ _ _ _ (Nat.le_of_succ_le hr)]; simp [hno]
    rw [State.drawRows, Canvas.drawColumns_collision _ _ _ _ (Nat.le_refl 8), Bool.or_eq_true,
      ih (Nat.le_of_succ_le hr), decide_eq_true_iff]
    simp only [hpix]
    constructor
    · rintro (⟨k, hk, rest⟩ | ⟨c, hc, rest⟩)
      · exact ⟨k, Nat.lt_succ_of_lt hk, rest⟩
      · exact ⟨r, Nat.lt_succ_self r, c, hc, rest⟩
    · rintro ⟨k, hk, c, hc, rest⟩
      rcases Nat.lt_succ_iff_lt_or_eq.1 hk with hk | rfl
      · exact .inl ⟨k, hk, c, hc, rest⟩
      · exact .inr ⟨c, hc, rest⟩

end Sys2Proof.Machine
end

