-- ==== Sys2Proof/Laws/Fetch.lean ====
section
/-! SUPPORT. The two bytes of the fetched word (20_memory.md R51, 40_step_cycle.md R102). -/

namespace Sys2Proof.Machine

variable (s : State)

/-- The high byte of the fetched word is the byte at PC. -/
theorem State.firstByte_fetchWord : firstByte s.fetchWord = s.readByte (BitVec.ofNat 12 s.pc.toNat) :=
  firstByte_wordOfBytes ..

/-- The low byte of the fetched word is the byte at PC + 1. -/
theorem State.secondByte_fetchWord : secondByte s.fetchWord = s.readByte (BitVec.ofNat 12 (s.pc.toNat + 1)) :=
  secondByte_wordOfBytes ..

end Sys2Proof.Machine
end

