-- ==== Sys2Proof/Laws/Frame.lean ====
section
/-! SUPPORT. What the shared ends of instructions change (`OnlyChanges`), and what 8XYn with a flag leaves (42_alu.md
R140). -/

namespace Sys2Proof.Machine

variable (s : State)

/-- Moving PC changes none of the parts. -/
theorem State.retire_changes (n : Next) (parts : List Part) : OnlyChanges parts s (s.retire n) := by
  simp [OnlyChanges]

/-- Taking a diagnostic changes the log alone (R212). -/
theorem State.recover_changes (d : Diagnostic) (n : Next) : OnlyChanges [.diags] s (s.recover d n) := by
  simp [OnlyChanges]

/-- One result in Vx (R141 to R146) changes Vx alone. -/
theorem State.finishV_changes (x : Nibble) (r : Byte) : OnlyChanges [.reg x] s (s.finishV x r) := by
  refine ⟨fun y hy => ?_, by simp [State.finishV]⟩
  have hxy : x ≠ y := by rintro rfl; exact hy (.head _)
  simp [State.finishV, hxy]

/-- One result in I (R160 to R162) changes I alone. -/
theorem State.finishI_changes (w : Word) : OnlyChanges [.index] s (s.finishI w) := by
  simp [OnlyChanges, State.finishI]

/-- A result with its flag changes Vx and VF alone (R140). -/
theorem State.finishRF_changes (x : Nibble) (r : Byte) (f : Bool) :
    OnlyChanges [.reg x, .reg 0xF#4] s (s.finishRF x r f) := by
  obtain ⟨v, hv⟩ := State.setRF_only s x r f
  refine ⟨fun y hy => ?_, ?_⟩
  · have hxy : x ≠ y := by rintro rfl; exact hy (.head _)
    have hy15 : y ≠ 0xF#4 := by rintro rfl; exact hy (.tail _ (.head _))
    rw [State.finishRF, State.getV_retire, State.getV_setRF, if_neg hy15, if_neg hxy]
  · rw [State.finishRF, hv]; simp [State.readByte]

/-- A result with its flag ends with PC + 2. -/
theorem State.finishRF_ends (x : Nibble) (r : Byte) (f : Bool) :
    (s.finishRF x r f).pc = s.pc + 2#16 ∧ (s.finishRF x r f).awaitingKey = false := by
  obtain ⟨v, hv⟩ := State.setRF_only s x r f
  rw [State.finishRF, hv]; exact ⟨rfl, rfl⟩

/-- Where a result and its flag stand (R140). -/
theorem State.finishRF_result (x : Nibble) (r : Byte) (f : Bool) :
    ResultAndFlag s (s.finishRF x r f) x r.toNat (flagByte f).toNat := by
  have hy := fun y => State.getV_setRF s x y r f
  refine ⟨fun h => ⟨?_, ?_⟩, fun h ho => ?_, fun h ho => ?_⟩ <;>
    rw [State.finishRF, State.getV_retire, hy] <;> simp only [h, if_false, if_true, false_and]
  · simp [ho]
  · simp [ho]

/-- A store of memory bytes and the end of the step: bytes that keep their value are not changed. -/
theorem State.memOnly_changes (parts : List Part) (t : State) (ht : ∃ m, t = { s with mem := m })
    (h : ∀ a, Part.byte a ∉ parts → t.readByte a = s.readByte a) (n : Next) :
    OnlyChanges parts s (t.retire n) := by
  obtain ⟨m, rfl⟩ := ht
  refine ⟨fun _ _ => rfl, fun _ => rfl, fun _ _ => rfl, fun _ => rfl, fun _ => rfl, fun _ => rfl, h, ?_⟩
  simp

/-- A load of registers and the end of the step: registers that keep their value are not changed. -/
theorem State.regsOnly_changes (parts : List Part) (t : State) (ht : ∃ v, t = { s with v := v })
    (h : ∀ y, Part.reg y ∉ parts → t.getV y = s.getV y) (n : Next) :
    OnlyChanges parts s (t.retire n) := by
  obtain ⟨v, rfl⟩ := ht
  exact ⟨h, by simp [State.readByte]⟩

/-- The stores of FX33 change the three bytes at I alone (R163). -/
theorem State.storeDigits_changes (b : Byte) (n : Next) :
    OnlyChanges (dataBytes s 3) s ((s.storeDigits b).retire n) := by
  refine State.memOnly_changes s _ _ (State.storeDigits_only s b) (fun a ha => State.storeDigits_other s b a ?_) n
  rintro k hk rfl; exact ha (List.mem_map.2 ⟨k, List.mem_range.2 hk, rfl⟩)

/-- The stores of FX55 change the bytes at I alone (R164). -/
theorem State.storeBlock_changes (c : Nat) (n : Next) :
    OnlyChanges (dataBytes s c) s ((s.storeBlock c).retire n) := by
  refine State.memOnly_changes s _ _ (State.storeBlock_only s c) (fun a ha => State.storeBlock_other s c a ?_) n
  rintro k hk rfl; exact ha (List.mem_map.2 ⟨k, List.mem_range.2 hk, rfl⟩)

/-- The loads of FX65 change the first registers alone (R165). -/
theorem State.loadBlock_changes {c : Nat} (hc : c ≤ 16) (n : Next) :
    OnlyChanges (firstRegs c) s ((s.loadBlock c).retire n) := by
  refine State.regsOnly_changes s _ _ (State.loadBlock_only s c) (fun y hy => ?_) n
  rw [State.getV_loadBlock s hc, if_neg]
  intro h; exact hy (List.mem_map.2 ⟨y.toNat, List.mem_range.2 h, by simp⟩)

/-- A finished draw changes the framebuffer, the redraw flag and VF alone (R191). -/
theorem State.drawn_changes (cv : Canvas) (n : Next) :
    OnlyChanges [.fb, .redraw, .reg 0xF#4] s ((s.drawn cv).retire n) := by
  refine ⟨fun y hy => ?_, by simp [State.drawn]⟩
  have : 0xF#4 ≠ y := by rintro rfl; exact hy (.tail _ (.tail _ (.head _)))
  simp [State.drawn, this]

/-- A random byte changes Vx and the draw counter alone (R180). -/
theorem State.randomResult_changes (x : Nibble) (kk drawn : Byte) :
    OnlyChanges [.reg x, .draws] s (s.randomResult x kk drawn) := by
  refine ⟨fun y hy => ?_, by simp [State.randomResult]⟩
  have : x ≠ y := by rintro rfl; exact hy (.head _)
  simp [State.randomResult, this]

end Sys2Proof.Machine
end

