-- ==== Sys2Proof/Laws/Host.lean ====
section
/-! SUPPORT. What the timer ticks and the copy of a program can do (60_exceptions.md R220, R221,
70_reset_and_hazards.md R252). -/

namespace Sys2Proof.Machine

variable (s : State)

/-- Everything `k` ticks do (R220, R221): each timer loses `k`, not below zero. -/
theorem State.ticks_eq (k : Nat) :
    s.ticks k = { s with dt := BitVec.ofNat 8 (s.dt.toNat - k), st := BitVec.ofNat 8 (s.st.toNat - k) } := by
  have one : ∀ (b : Byte) (j : Nat), (if BitVec.ofNat 8 (b.toNat - j) = 0#8 then 0#8
      else BitVec.ofNat 8 (b.toNat - j) - 1#8) = BitVec.ofNat 8 (b.toNat - (j + 1)) := by
    intro b j
    have hb := b.isLt
    apply BitVec.eq_of_toNat_eq
    split
    next h => have := congrArg BitVec.toNat h; simp at this ⊢; omega
    next h =>
      have : ¬(b.toNat - j) % 256 = 0 := fun e => h (BitVec.eq_of_toNat_eq (by simpa using e))
      simp only [BitVec.toNat_sub, BitVec.toNat_ofNat]; omega
  induction k with
  | zero => simp [State.ticks]
  | succ k ih => simp only [State.ticks, ih, State.tick, one]

/-- Everything `tickTimers` does (R220, decisions D18 and D33). -/
theorem State.tickTimers_eq (ms : Nat) :
    s.tickTimers ms =
      { s with dt := BitVec.ofNat 8 (s.dt.toNat - (s.tickAcc.val + ms) / 16),
               st := BitVec.ofNat 8 (s.st.toNat - (s.tickAcc.val + ms) / 16),
               tickAcc := ⟨(s.tickAcc.val + ms) % 16, Nat.mod_lt _ (by decide)⟩ } :=
  State.ticks_eq _ _

/-- Copying a program changes memory only. -/
theorem State.copyBytes_only (base : Nat) (bytes : List Byte) :
    ∃ m, s.copyBytes base bytes = { s with mem := m } := by
  induction bytes generalizing s base with
  | nil => exact ⟨s.mem, rfl⟩
  | cons b rest ih => obtain ⟨m, hm⟩ := ih (s.writeByte (BitVec.ofNat 12 base) b) (base + 1); exact ⟨m, hm⟩

/-- Copying a program keeps the canonical form. -/
theorem State.copyBytes_wf (base : Nat) (bytes : List Byte) (h : Memory.wf s.params s.mem) :
    Memory.wf (s.copyBytes base bytes).params (s.copyBytes base bytes).mem := by
  induction bytes generalizing s base with
  | nil => exact h
  | cons b rest ih => exact ih (s.writeByte (BitVec.ofNat 12 base) b) (base + 1) (Memory.write_wf _ _ h)

/-- Everything the copy of a program that fits does to the bytes that are read (R252). -/
theorem State.readByte_copyBytes (base : Nat) (bytes : List Byte) (hb : base + bytes.length ≤ 4096) (a : Addr) :
    (s.copyBytes base bytes).readByte a =
      if a.toNat < base then s.readByte a else (bytes[a.toNat - base]?).getD (s.readByte a) := by
  induction bytes generalizing s base with
  | nil => simp [State.copyBytes]
  | cons b rest ih =>
    have hlen : base + 1 + rest.length ≤ 4096 := by simp only [List.length_cons] at hb; omega
    rw [State.copyBytes, ih _ _ hlen, State.readByte_writeByte]
    have hbase : (BitVec.ofNat 12 base).toNat = base := by
      simp only [BitVec.toNat_ofNat]; omega
    by_cases h : a.toNat = base
    · have ha : BitVec.ofNat 12 base = a := BitVec.eq_of_toNat_eq (by rw [hbase, h])
      simp [h, ha]
    · have ha : ¬BitVec.ofNat 12 base = a := fun e => h (by rw [← e, hbase])
      by_cases hlt : a.toNat < base
      · simp [ha, hlt, Nat.lt_succ_of_lt hlt]
      · obtain ⟨d, hd⟩ : ∃ d, a.toNat = base + 1 + d := ⟨a.toNat - base - 1, by omega⟩
        simp only [ha, if_false, hd, if_neg (by omega : ¬base + 1 + d < base + 1),
          Nat.add_sub_cancel_left, if_neg (by omega : ¬base + 1 + d < base)]
        rw [show base + 1 + d - base = d + 1 by omega, List.getElem?_cons_succ]

end Sys2Proof.Machine
end

