-- ==== Sys2Proof/Laws/Keys.lean ====
section
/-! SUPPORT. The scan of the key state FX0A makes (45_display_keys.md R194). -/

namespace Sys2Proof.Machine

variable (s : State)

/-- The scan finds nothing exactly when no key is down. -/
theorem State.lowestKeyDown_none : s.lowestKeyDown = none ↔ ∀ k, s.keyDown k = false := by
  unfold State.lowestKeyDown
  rw [List.find?_eq_none]
  refine ⟨fun h k => ?_, fun h k _ => by simp [h]⟩
  simpa using h k (List.mem_map.2 ⟨k.toNat, List.mem_range.2 k.isLt, by simp⟩)

/-- The scan finds the lowest index down. -/
theorem State.lowestKeyDown_some (k : Nibble) (h : s.keyDown k = true)
    (hl : ∀ j, j.toNat < k.toNat → s.keyDown j = false) : s.lowestKeyDown = some k := by
  unfold State.lowestKeyDown
  rw [List.find?_map, Option.map_eq_some_iff]
  refine ⟨k.toNat, ?_, by simp⟩
  rw [List.find?_range_eq_some]
  refine ⟨by simpa [Function.comp] using h, List.mem_range.2 k.isLt, fun j hj => ?_⟩
  have := hl (BitVec.ofNat 4 j) (by simp; omega)
  simp [Function.comp, this]

/-- The key state with no key down is the one value with sixteen false flags. -/
theorem State.key_eq_up : s.key = Vector.replicate 16 false ↔ ∀ k, s.keyDown k = false := by
  refine ⟨fun h k => by simp [State.keyDown, h], fun h => Vector.ext fun j hj => ?_⟩
  have hk := h (BitVec.ofNat 4 j)
  have e : j % 16 = j := Nat.mod_eq_of_lt hj
  simp only [State.keyDown, BitVec.toNat_ofNat, Nat.reducePow, e] at hk
  simpa using hk

/-- What the key write does to the flags (R233). -/
theorem State.keyDown_writeKey (k j : Nibble) (down : Bool) :
    (s.writeKey k down).keyDown j = if j = k then down else s.keyDown j := by
  simp only [State.keyDown, State.writeKey, Vector.getElem_set]
  by_cases h : j = k
  · simp [h]
  · have : k.toNat ≠ j.toNat := fun e => h (BitVec.eq_of_toNat_eq e.symm)
    simp [h, this]

end Sys2Proof.Machine
end

