-- ==== Sys2Proof/Laws/PerInstr.lean ====
section
/-! SUPPORT. One lemma per instruction: the word it is encoded to matches its row of spec/opcode_table.json under the
match rule of 40_step_cycle.md R103. -/

namespace Sys2Proof.Laws.RowMatch

/-- The encoding of an instruction fits a row of the table that bears its mnemonic. -/
def Statement (i : Instr) : Prop := ∃ r ∈ opcodeTable, r.mnemonic = i.mnemonic ∧ r.fits (encode i) = true

theorem cls : Statement .cls :=
  ⟨⟨"CLS", 0x00E0#16, 0xFFFF#16⟩, by simp [opcodeTable, tableLow, tableHigh], rfl, by decide⟩

theorem ret : Statement .ret :=
  ⟨⟨"RET", 0x00EE#16, 0xFFFF#16⟩, by simp [opcodeTable, tableLow, tableHigh], rfl, by decide⟩

theorem sys (nnn : Addr) : Statement (.sys nnn) :=
  ⟨⟨"SYS_nnn", 0x0000#16, 0xF000#16⟩, by simp [opcodeTable, tableLow, tableHigh], rfl, beq_iff_eq.2 (formN_and_op ..)⟩

theorem jp (nnn : Addr) : Statement (.jp nnn) :=
  ⟨⟨"JP_nnn", 0x1000#16, 0xF000#16⟩, by simp [opcodeTable, tableLow, tableHigh], rfl, beq_iff_eq.2 (formN_and_op ..)⟩

theorem call (nnn : Addr) : Statement (.call nnn) :=
  ⟨⟨"CALL_nnn", 0x2000#16, 0xF000#16⟩, by simp [opcodeTable, tableLow, tableHigh], rfl, beq_iff_eq.2 (formN_and_op ..)⟩

theorem seByte (x : Nibble) (kk : Byte) : Statement (.seByte x kk) :=
  ⟨⟨"SE_Vx__kk", 0x3000#16, 0xF000#16⟩, by simp [opcodeTable, tableLow, tableHigh], rfl, beq_iff_eq.2 (formXK_and_op ..)⟩

theorem sneByte (x : Nibble) (kk : Byte) : Statement (.sneByte x kk) :=
  ⟨⟨"SNE_Vx__kk", 0x4000#16, 0xF000#16⟩, by simp [opcodeTable, tableLow, tableHigh], rfl, beq_iff_eq.2 (formXK_and_op ..)⟩

theorem seReg (x : Nibble) (y : Nibble) : Statement (.seReg x y) :=
  ⟨⟨"SE_Vx__Vy", 0x5000#16, 0xF00F#16⟩, by simp [opcodeTable, tableLow, tableHigh], rfl, beq_iff_eq.2 (formXYN_and_sub ..)⟩

theorem ldByte (x : Nibble) (kk : Byte) : Statement (.ldByte x kk) :=
  ⟨⟨"LD_Vx__kk", 0x6000#16, 0xF000#16⟩, by simp [opcodeTable, tableLow, tableHigh], rfl, beq_iff_eq.2 (formXK_and_op ..)⟩

theorem addByte (x : Nibble) (kk : Byte) : Statement (.addByte x kk) :=
  ⟨⟨"ADD_Vx__kk", 0x7000#16, 0xF000#16⟩, by simp [opcodeTable, tableLow, tableHigh], rfl, beq_iff_eq.2 (formXK_and_op ..)⟩

theorem ldReg (x : Nibble) (y : Nibble) : Statement (.ldReg x y) :=
  ⟨⟨"LD_Vx__Vy", 0x8000#16, 0xF00F#16⟩, by simp [opcodeTable, tableLow, tableHigh], rfl, beq_iff_eq.2 (formXYN_and_sub ..)⟩

theorem orReg (x : Nibble) (y : Nibble) : Statement (.orReg x y) :=
  ⟨⟨"OR_Vx__Vy", 0x8001#16, 0xF00F#16⟩, by simp [opcodeTable, tableLow, tableHigh], rfl, beq_iff_eq.2 (formXYN_and_sub ..)⟩

theorem andReg (x : Nibble) (y : Nibble) : Statement (.andReg x y) :=
  ⟨⟨"AND_Vx__Vy", 0x8002#16, 0xF00F#16⟩, by simp [opcodeTable, tableLow, tableHigh], rfl, beq_iff_eq.2 (formXYN_and_sub ..)⟩

theorem xorReg (x : Nibble) (y : Nibble) : Statement (.xorReg x y) :=
  ⟨⟨"XOR_Vx__Vy", 0x8003#16, 0xF00F#16⟩, by simp [opcodeTable, tableLow, tableHigh], rfl, beq_iff_eq.2 (formXYN_and_sub ..)⟩

theorem addReg (x : Nibble) (y : Nibble) : Statement (.addReg x y) :=
  ⟨⟨"ADD_Vx__Vy", 0x8004#16, 0xF00F#16⟩, by simp [opcodeTable, tableLow, tableHigh], rfl, beq_iff_eq.2 (formXYN_and_sub ..)⟩

theorem subReg (x : Nibble) (y : Nibble) : Statement (.subReg x y) :=
  ⟨⟨"SUB_Vx__Vy", 0x8005#16, 0xF00F#16⟩, by simp [opcodeTable, tableLow, tableHigh], rfl, beq_iff_eq.2 (formXYN_and_sub ..)⟩

theorem shr (x : Nibble) (y : Nibble) : Statement (.shr x y) :=
  ⟨⟨"SHR_Vx", 0x8006#16, 0xF00F#16⟩, by simp [opcodeTable, tableLow, tableHigh], rfl, beq_iff_eq.2 (formXYN_and_sub ..)⟩

theorem subnReg (x : Nibble) (y : Nibble) : Statement (.subnReg x y) :=
  ⟨⟨"SUBN_Vx__Vy", 0x8007#16, 0xF00F#16⟩, by simp [opcodeTable, tableLow, tableHigh], rfl, beq_iff_eq.2 (formXYN_and_sub ..)⟩

theorem shl (x : Nibble) (y : Nibble) : Statement (.shl x y) :=
  ⟨⟨"SHL_Vx", 0x800E#16, 0xF00F#16⟩, by simp [opcodeTable, tableLow, tableHigh], rfl, beq_iff_eq.2 (formXYN_and_sub ..)⟩

theorem sneReg (x : Nibble) (y : Nibble) : Statement (.sneReg x y) :=
  ⟨⟨"SNE_Vx__Vy", 0x9000#16, 0xF00F#16⟩, by simp [opcodeTable, tableLow, tableHigh], rfl, beq_iff_eq.2 (formXYN_and_sub ..)⟩

theorem ldI (nnn : Addr) : Statement (.ldI nnn) :=
  ⟨⟨"LD_I__nnn", 0xA000#16, 0xF000#16⟩, by simp [opcodeTable, tableLow, tableHigh], rfl, beq_iff_eq.2 (formN_and_op ..)⟩

theorem jpV0 (nnn : Addr) : Statement (.jpV0 nnn) :=
  ⟨⟨"JP_V0__nnn", 0xB000#16, 0xF000#16⟩, by simp [opcodeTable, tableLow, tableHigh], rfl, beq_iff_eq.2 (formN_and_op ..)⟩

theorem rnd (x : Nibble) (kk : Byte) : Statement (.rnd x kk) :=
  ⟨⟨"RND_Vx__kk", 0xC000#16, 0xF000#16⟩, by simp [opcodeTable, tableLow, tableHigh], rfl, beq_iff_eq.2 (formXK_and_op ..)⟩

theorem drw (x : Nibble) (y : Nibble) (n : Nibble) : Statement (.drw x y n) :=
  ⟨⟨"DRW_Vx__Vy__n", 0xD000#16, 0xF000#16⟩, by simp [opcodeTable, tableLow, tableHigh], rfl, beq_iff_eq.2 (formXYN_and_op ..)⟩

theorem skp (x : Nibble) : Statement (.skp x) :=
  ⟨⟨"SKP_Vx", 0xE09E#16, 0xF0FF#16⟩, by simp [opcodeTable, tableLow, tableHigh], rfl, beq_iff_eq.2 (formXK_and_sub ..)⟩

theorem sknp (x : Nibble) : Statement (.sknp x) :=
  ⟨⟨"SKNP_Vx", 0xE0A1#16, 0xF0FF#16⟩, by simp [opcodeTable, tableLow, tableHigh], rfl, beq_iff_eq.2 (formXK_and_sub ..)⟩

theorem ldVxDt (x : Nibble) : Statement (.ldVxDt x) :=
  ⟨⟨"LD_Vx__DT", 0xF007#16, 0xF0FF#16⟩, by simp [opcodeTable, tableLow, tableHigh], rfl, beq_iff_eq.2 (formXK_and_sub ..)⟩

theorem ldVxK (x : Nibble) : Statement (.ldVxK x) :=
  ⟨⟨"LD_Vx__K", 0xF00A#16, 0xF0FF#16⟩, by simp [opcodeTable, tableLow, tableHigh], rfl, beq_iff_eq.2 (formXK_and_sub ..)⟩

theorem ldDtVx (x : Nibble) : Statement (.ldDtVx x) :=
  ⟨⟨"LD_DT__Vx", 0xF015#16, 0xF0FF#16⟩, by simp [opcodeTable, tableLow, tableHigh], rfl, beq_iff_eq.2 (formXK_and_sub ..)⟩

theorem ldStVx (x : Nibble) : Statement (.ldStVx x) :=
  ⟨⟨"LD_ST__Vx", 0xF018#16, 0xF0FF#16⟩, by simp [opcodeTable, tableLow, tableHigh], rfl, beq_iff_eq.2 (formXK_and_sub ..)⟩

theorem addI (x : Nibble) : Statement (.addI x) :=
  ⟨⟨"ADD_I__Vx", 0xF01E#16, 0xF0FF#16⟩, by simp [opcodeTable, tableLow, tableHigh], rfl, beq_iff_eq.2 (formXK_and_sub ..)⟩

theorem ldF (x : Nibble) : Statement (.ldF x) :=
  ⟨⟨"LD_F__Vx", 0xF029#16, 0xF0FF#16⟩, by simp [opcodeTable, tableLow, tableHigh], rfl, beq_iff_eq.2 (formXK_and_sub ..)⟩

theorem ldB (x : Nibble) : Statement (.ldB x) :=
  ⟨⟨"LD_B__Vx", 0xF033#16, 0xF0FF#16⟩, by simp [opcodeTable, tableLow, tableHigh], rfl, beq_iff_eq.2 (formXK_and_sub ..)⟩

theorem storeRegs (x : Nibble) : Statement (.storeRegs x) :=
  ⟨⟨"LD__I___Vx", 0xF055#16, 0xF0FF#16⟩, by simp [opcodeTable, tableLow, tableHigh], rfl, beq_iff_eq.2 (formXK_and_sub ..)⟩

theorem loadRegs (x : Nibble) : Statement (.loadRegs x) :=
  ⟨⟨"LD_Vx___I", 0xF065#16, 0xF0FF#16⟩, by simp [opcodeTable, tableLow, tableHigh], rfl, beq_iff_eq.2 (formXK_and_sub ..)⟩

end Sys2Proof.Laws.RowMatch
end

