-- ==== Sys2Proof/Tests/Slice0.lean ====
section
/-! SUPPORT. The model's own tests: the well-formedness smoke, one word per instruction written out from the spec's
encodings (30_encoding.md R82, R84 to R89), single steps with the expected values of 95_test_vectors.md (the row is
named at each test), and a witness for the hypotheses of every statement that has some. -/

namespace Sys2Proof.Tests

open Sys2Proof Sys2Proof.Machine

/-! ## Well-formedness (R85) -/

theorem test_wf_refuses_sys_of_cls : (Instr.sys 0x0E0#12).wellFormed = false := by decide
theorem test_wf_refuses_sys_of_ret : (Instr.sys 0x0EE#12).wellFormed = false := by decide
theorem test_wf_accepts_sys : (Instr.sys 0x123#12).wellFormed = true := by decide
theorem test_wf_accepts_drw : (Instr.drw 0xF#4 0xF#4 0xF#4).wellFormed = true := by decide

/-! ## Decoding words of the spec: every family, every constructor -/

theorem test_decode_family0 : decode 0x00E0#16 = .ok .cls ∧ decode 0x00EE#16 = .ok .ret ∧
    decode 0x0123#16 = .ok (.sys 0x123#12) := by decide

theorem test_decode_jumps : decode 0x1FFF#16 = .ok (.jp 0xFFF#12) ∧ decode 0x2204#16 = .ok (.call 0x204#12) ∧
    decode 0xA123#16 = .ok (.ldI 0x123#12) ∧ decode 0xB300#16 = .ok (.jpV0 0x300#12) := by decide

theorem test_decode_bytes : decode 0x3042#16 = .ok (.seByte 0x0#4 0x42#8) ∧
    decode 0x4542#16 = .ok (.sneByte 0x5#4 0x42#8) ∧ decode 0x6F12#16 = .ok (.ldByte 0xF#4 0x12#8) ∧
    decode 0x7F01#16 = .ok (.addByte 0xF#4 0x01#8) ∧ decode 0xC0F0#16 = .ok (.rnd 0x0#4 0xF0#8) := by decide

theorem test_decode_register_skips : decode 0x5120#16 = .ok (.seReg 0x1#4 0x2#4) ∧
    decode 0x9120#16 = .ok (.sneReg 0x1#4 0x2#4) ∧ decode 0x5121#16 = .error (.unknownOpcode 0x5121#16) ∧
    decode 0x9121#16 = .error (.unknownOpcode 0x9121#16) := by decide

theorem test_decode_alu_low : decode 0x8120#16 = .ok (.ldReg 0x1#4 0x2#4) ∧
    decode 0x8121#16 = .ok (.orReg 0x1#4 0x2#4) ∧ decode 0x8122#16 = .ok (.andReg 0x1#4 0x2#4) ∧
    decode 0x8123#16 = .ok (.xorReg 0x1#4 0x2#4) ∧ decode 0x8124#16 = .ok (.addReg 0x1#4 0x2#4) := by decide

theorem test_decode_alu_high : decode 0x8125#16 = .ok (.subReg 0x1#4 0x2#4) ∧
    decode 0x8126#16 = .ok (.shr 0x1#4 0x2#4) ∧ decode 0x8127#16 = .ok (.subnReg 0x1#4 0x2#4) ∧
    decode 0x812E#16 = .ok (.shl 0x1#4 0x2#4) ∧ decode 0x8128#16 = .error (.unknownOpcode 0x8128#16) := by decide

theorem test_decode_display_keys : decode 0xD015#16 = .ok (.drw 0x0#4 0x1#4 0x5#4) ∧
    decode 0xE29E#16 = .ok (.skp 0x2#4) ∧ decode 0xE2A1#16 = .ok (.sknp 0x2#4) ∧
    decode 0xE0FF#16 = .error (.unknownOpcode 0xE0FF#16) := by decide

theorem test_decode_familyF_low : decode 0xF107#16 = .ok (.ldVxDt 0x1#4) ∧ decode 0xF30A#16 = .ok (.ldVxK 0x3#4) ∧
    decode 0xF015#16 = .ok (.ldDtVx 0x0#4) ∧ decode 0xF018#16 = .ok (.ldStVx 0x0#4) ∧
    decode 0xF01E#16 = .ok (.addI 0x0#4) := by decide

theorem test_decode_familyF_high : decode 0xF029#16 = .ok (.ldF 0x0#4) ∧ decode 0xFA33#16 = .ok (.ldB 0xA#4) ∧
    decode 0xF255#16 = .ok (.storeRegs 0x2#4) ∧ decode 0xF265#16 = .ok (.loadRegs 0x2#4) ∧
    decode 0xF0FF#16 = .error (.unknownOpcode 0xF0FF#16) := by decide

/-- R51: the byte at the lower address is bits 15:8. -/
theorem test_decode_big_endian : decodeBytes [0x12#8, 0x34#8, 0x56#8] = .ok (.jp 0x234#12, [0x56#8]) ∧
    decodeBytes [0x12#8] = .error .truncated := by decide

theorem test_decodeTableWord : decodeTableWord 16 0xD015 = some (.drw 0x0#4 0x1#4 0x5#4) ∧
    decodeTableWord 16 0x5121 = none := by decide

/-! ## One step -/

/-- The state after one step; the state itself where a step gives none. -/
def next (s : State) : State :=
  match step s with
  | .next t => t
  | _ => s

/-- The state after one step of a word placed at PC. -/
def after (w : Word) (s : State) : State := next (s.storeWordAtPc w)

/-- The reset state with registers V0, V1, VF, I set (the set-up column of 95_test_vectors.md). -/
def with01F (v0 v1 vf : Byte) : State := ((State.reset.setV 0#4 v0).setV 1#4 v1).setV 0xF#4 vf

/-- The reset state under `DATA_OOB = wrap`. -/
def wrapping (s : State) : State := { s with params := { s.params with dataOob := .wrap } }

/-- The reset state under `FLAG_ORDER = flag_first`. -/
def flagFirst (s : State) : State := { s with params := { s.params with flagOrder := .flagFirst } }

theorem test_withFetchWord_runs : (next (State.reset.withFetchWord 16 0x6F12)).getV 0xF#4 = 0x12#8 := by decide

/-- L2.8 row 1. -/
theorem test_step_at_ffe :
    (next { ((State.reset.writeByte 0xFFE#12 0x12#8).writeByte 0xFFF#12 0x34#8) with pc := 0xFFE#16 }).pc = 0x234#16 := by
  decide

/-- L2.8 row 2. -/
theorem test_step_at_fff :
    (next { State.reset with pc := 0xFFF#16 }).pc = 0x200#16 ∧
    (next { State.reset with pc := 0xFFF#16 }).diags = [.programCounterOutOfBounds 0xFFF#16] := by decide

/-- L2.8 row 4. -/
theorem test_step_at_odd_pc :
    (after 0x6077#16 { State.reset with pc := 0x201#16 }).getV 0#4 = 0x77#8 ∧
    (after 0x6077#16 { State.reset with pc := 0x201#16 }).pc = 0x203#16 := by decide

/-- L2.10 row 1. -/
theorem test_step_unknown : (after 0x5121#16 State.reset).diags = [.unknownOpcode 0x5121#16 0x200#16] ∧
    (after 0x5121#16 State.reset).pc = 0x202#16 := by decide

/-- L2.10 row 5. -/
theorem test_sys : (after 0x00FF#16 State.reset).pc = 0x202#16 ∧ (after 0x00FF#16 State.reset).diags = [] := by decide

/-- L2.1 row 3. -/
theorem test_jp : (after 0x1FFF#16 State.reset).pc = 0xFFF#16 := by decide

/-- L2.1 row 4. -/
theorem test_call : (after 0x2204#16 State.reset).stack[0] = 0x202#16 ∧ (after 0x2204#16 State.reset).sp.val = 1 ∧
    (after 0x2204#16 State.reset).pc = 0x204#16 := by decide

/-- L2.1 row 5. -/
theorem test_call_full : (after 0x2300#16 { State.reset with sp := 16 }).diags = [.stackOverflow 0x200#16] ∧
    (after 0x2300#16 { State.reset with sp := 16 }).sp.val = 16 := by decide

/-- L2.1 row 7. -/
theorem test_ret :
    (after 0x00EE#16 { State.reset with sp := 1, stack := State.reset.stack.set 0 0x456#16 }).pc = 0x456#16 ∧
    (after 0x00EE#16 { State.reset with sp := 1, stack := State.reset.stack.set 0 0x456#16 }).sp.val = 0 := by decide

/-- L2.1 row 6. -/
theorem test_ret_empty : (after 0x00EE#16 State.reset).diags = [.stackUnderflow 0x200#16] ∧
    (after 0x00EE#16 State.reset).pc = 0x202#16 := by decide

/-- L2.1 rows 8 and 9. -/
theorem test_se_byte : (after 0x3042#16 (with01F 0x42#8 0#8 0#8)).pc = 0x204#16 ∧
    (after 0x3042#16 (with01F 0x41#8 0#8 0#8)).pc = 0x202#16 := by decide

/-- L2.1 row 18. -/
theorem test_se_byte_past_memory : (after 0x3000#16 { State.reset with pc := 0xFFC#16 }).pc = 0x1000#16 := by decide

/-- L2.1 rows 10 and 11. -/
theorem test_sne_byte : (after 0x4042#16 (with01F 0x42#8 0#8 0#8)).pc = 0x202#16 ∧
    (after 0x4042#16 (with01F 0x41#8 0#8 0#8)).pc = 0x204#16 := by decide

/-- L2.1 rows 12 and 13, on V0 and V1. -/
theorem test_se_reg : (after 0x5010#16 (with01F 2#8 2#8 0#8)).pc = 0x204#16 ∧
    (after 0x5010#16 (with01F 2#8 3#8 0#8)).pc = 0x202#16 := by decide

/-- L2.1 rows 14 and 15, on V0 and V1. -/
theorem test_sne_reg : (after 0x9010#16 (with01F 2#8 2#8 0#8)).pc = 0x202#16 ∧
    (after 0x9010#16 (with01F 2#8 3#8 0#8)).pc = 0x204#16 := by decide

/-- L2.1 row 17. -/
theorem test_jp_v0 : (after 0xBF80#16 (with01F 0xFF#8 0#8 0#8)).pc = 0x107F#16 := by decide

/-- L2.2 row 1. -/
theorem test_ld_byte : (after 0x6F12#16 State.reset).getV 0xF#4 = 0x12#8 := by decide

/-- L2.2 row 2. -/
theorem test_add_byte_wraps : (after 0x70FF#16 (with01F 1#8 0#8 0x55#8)).getV 0#4 = 0#8 ∧
    (after 0x70FF#16 (with01F 1#8 0#8 0x55#8)).getV 0xF#4 = 0x55#8 := by decide

/-- L2.3 row 1. -/
theorem test_ld_reg : (after 0x8010#16 (with01F 0#8 0xAB#8 0#8)).getV 0#4 = 0xAB#8 := by decide

/-- L2.3 row 2. -/
theorem test_or : (after 0x8011#16 (with01F 0xF0#8 0x0F#8 7#8)).getV 0#4 = 0xFF#8 ∧
    (after 0x8011#16 (with01F 0xF0#8 0x0F#8 7#8)).getV 0xF#4 = 7#8 := by decide

/-- L2.3 row 3. -/
theorem test_and : (after 0x8012#16 (with01F 0xF0#8 0x3C#8 0#8)).getV 0#4 = 0x30#8 := by decide

/-- L2.3 row 4. -/
theorem test_xor : (after 0x8013#16 (with01F 0xFF#8 0x0F#8 0#8)).getV 0#4 = 0xF0#8 := by decide

/-- L2.3 rows 5 and 18. -/
theorem test_add_carries : (after 0x8014#16 (with01F 0xFF#8 1#8 0#8)).getV 0#4 = 0#8 ∧
    (after 0x8014#16 (with01F 0xFF#8 1#8 0#8)).getV 0xF#4 = 1#8 ∧
    (after 0x80F4#16 (with01F 0xFF#8 0#8 1#8)).getV 0#4 = 0#8 := by decide

/-- L2.3 row 19. -/
theorem test_add_to_vf : (after 0x8F14#16 (with01F 0#8 1#8 0xFF#8)).getV 0xF#4 = 1#8 ∧
    (after 0x8F14#16 (flagFirst (with01F 0#8 1#8 0xFF#8))).getV 0xF#4 = 0#8 := by decide

/-- L2.3 rows 8 and 9. -/
theorem test_sub : (after 0x8015#16 (with01F 3#8 5#8 9#8)).getV 0#4 = 0xFE#8 ∧
    (after 0x8015#16 (with01F 3#8 5#8 9#8)).getV 0xF#4 = 0#8 ∧
    (after 0x8015#16 (with01F 5#8 5#8 9#8)).getV 0xF#4 = 1#8 := by decide

/-- L2.3 row 20. -/
theorem test_sub_to_vf : (after 0x8F15#16 (with01F 0#8 5#8 3#8)).getV 0xF#4 = 0#8 ∧
    (after 0x8F15#16 (flagFirst (with01F 0#8 5#8 3#8))).getV 0xF#4 = 0xFE#8 := by decide

/-- L2.3 rows 11 and 17. -/
theorem test_shr : (after 0x8016#16 (with01F 5#8 0#8 0#8)).getV 0xF#4 = 1#8 ∧
    (after 0x8016#16 (with01F 0x12#8 0x34#8 9#8)).getV 0#4 = 9#8 := by decide

/-- L2.3 row 21. -/
theorem test_shr_to_vf : (after 0x8F06#16 (with01F 0#8 0#8 5#8)).getV 0xF#4 = 1#8 ∧
    (after 0x8F06#16 (flagFirst (with01F 0#8 0#8 5#8))).getV 0xF#4 = 2#8 := by decide

/-- L2.3 rows 13 and 14. -/
theorem test_subn : (after 0x8017#16 (with01F 5#8 3#8 9#8)).getV 0#4 = 0xFE#8 ∧
    (after 0x8017#16 (with01F 5#8 3#8 9#8)).getV 0xF#4 = 0#8 ∧
    (after 0x8017#16 (with01F 3#8 5#8 9#8)).getV 0xF#4 = 1#8 := by decide

/-- L2.3 row 22. -/
theorem test_subn_to_vf : (after 0x8F17#16 (with01F 0#8 3#8 5#8)).getV 0xF#4 = 0#8 ∧
    (after 0x8F17#16 (flagFirst (with01F 0#8 3#8 5#8))).getV 0xF#4 = 0xFE#8 := by decide

/-- L2.3 rows 15 and 16. -/
theorem test_shl : (after 0x801E#16 (with01F 0x81#8 0#8 0#8)).getV 0#4 = 2#8 ∧
    (after 0x801E#16 (with01F 0x81#8 0#8 0#8)).getV 0xF#4 = 1#8 ∧
    (after 0x801E#16 (with01F 0x7F#8 0#8 9#8)).getV 0xF#4 = 0#8 := by decide

/-- L2.3 row 23. -/
theorem test_shl_to_vf : (after 0x8F0E#16 (with01F 0#8 0#8 0x81#8)).getV 0xF#4 = 1#8 ∧
    (after 0x8F0E#16 (flagFirst (with01F 0#8 0#8 0x81#8))).getV 0xF#4 = 2#8 := by decide

/-- L2.4 row 1. -/
theorem test_ld_i : (after 0xA123#16 State.reset).i = 0x123#16 := by decide

/-- L2.4 rows 2 and 3. -/
theorem test_add_i : (after 0xF01E#16 ((with01F 1#8 0#8 0#8).setI 0xFFF#16)).i = 0x1000#16 ∧
    (after 0xF01E#16 ((with01F 2#8 0#8 9#8).setI 0xFFFF#16)).i = 1#16 ∧
    (after 0xF01E#16 ((with01F 2#8 0#8 9#8).setI 0xFFFF#16)).getV 0xF#4 = 9#8 := by decide

/-- L2.4 rows 5 and 6. -/
theorem test_ld_f : (after 0xF029#16 (with01F 0x1A#8 0#8 0#8)).i = 0x82#16 ∧
    (after 0xF029#16
      { with01F 0x0F#8 0#8 0#8 with params := { Params.specDefault with fontBase := .at000 } }).i = 0x4B#16 := by decide

/-- L2.4 row 7. -/
theorem test_ld_b :
    let t := after 0xF033#16 ((with01F 0x9C#8 0#8 0#8).setI 0x300#16)
    t.readByte 0x300#12 = 1#8 ∧ t.readByte 0x301#12 = 5#8 ∧ t.readByte 0x302#12 = 6#8 := by decide

/-- L2.4 rows 10 and 11. -/
theorem test_ld_b_out_of_range :
    (after 0xF033#16 ((with01F 0x7B#8 0#8 0#8).setI 0xFFE#16)).diags =
      [.memoryAccessOutOfBounds 0x200#16 0x1000] ∧
    (after 0xF033#16 (wrapping ((with01F 0x7B#8 0#8 0#8).setI 0xFFE#16))).readByte 0#12 = 3#8 := by decide

/-- L2.4 row 13. -/
theorem test_store_regs :
    let t := after 0xF155#16 ((with01F 1#8 2#8 0#8).setI 0xFFE#16)
    t.readByte 0xFFE#12 = 1#8 ∧ t.readByte 0xFFF#12 = 2#8 ∧ t.i = 0xFFE#16 := by decide

/-- L2.4 row 18. -/
theorem test_store_regs_over_code :
    let t := after 0xF055#16
      { ((State.reset.storeWordAtPc 0x1255#16).setV 0#4 5#8).setI 0x200#16 with pc := 0x202#16 }
    wordOfBytes (t.readByte 0x200#12) (t.readByte 0x201#12) = 0x0555#16 := by decide

/-- L2.4 row 15. -/
theorem test_load_regs :
    let t := after 0xF265#16 (((State.reset.writeByte 0x300#12 1#8).writeByte 0x302#12 6#8).setI 0x300#16)
    t.getV 0#4 = 1#8 ∧ t.getV 1#4 = 0#8 ∧ t.getV 2#4 = 6#8 ∧ t.i = 0x300#16 := by decide

/-- L2.4 row 17. -/
theorem test_load_regs_out_of_range :
    let t := after 0xFF65#16 ((with01F 1#8 2#8 3#8).setI 0xFF8#16)
    t.getV 0#4 = 1#8 ∧ t.diags = [.memoryAccessOutOfBounds 0x200#16 0x1000] := by decide

/-- L2.5 row 1. -/
theorem test_ld_dt : (after 0xF015#16 (with01F 0x3C#8 0#8 0#8)).dt = 0x3C#8 := by decide

/-- L2.5 row 2. -/
theorem test_ld_st : (after 0xF018#16 (with01F 5#8 0#8 0#8)).st = 5#8 ∧
    (after 0xF018#16 (with01F 5#8 0#8 0#8)).soundActive = true := by decide

/-- L2.5 row 3. -/
theorem test_ld_vx_dt : (after 0xF107#16 (State.reset.setDt 0x2A#8)).getV 1#4 = 0x2A#8 := by decide

/-- L2.5 row 4: the drawn byte given. -/
theorem test_rnd_masks : (State.reset.randomResult 0#4 0xF0#8 0xB7#8).getV 0#4 = 0xB0#8 ∧
    (State.reset.randomResult 0#4 0xF0#8 0xB7#8).pc = 0x202#16 := by decide

/-- L2.5 row 5 for its fixed fields: the instruction completes whatever byte is drawn. -/
theorem test_rnd_completes : (after 0xC000#16 State.reset).pc = 0x202#16 ∧ (after 0xC000#16 State.reset).draws = 1 := by
  decide

/-- L2.6 row 1. -/
theorem test_cls :
    let t := after 0x00E0#16 { State.reset with fb := Vector.replicate 32 5#64 }
    t.readCell 0 = false ∧ t.readCell 2047 = false ∧ t.redraw = true := by decide

/-- The reset state with a sprite at 0x300 drawn from V0, V1. -/
def sprite (v0 v1 vf b0 b1 : Byte) : State :=
  ((with01F v0 v1 vf).writeByte 0x300#12 b0).writeByte 0x301#12 b1 |>.setI 0x300#16

/-- L2.6 row 2. -/
theorem test_drw_wraps :
    let t := after 0xD012#16 (sprite 0x3F#8 0x1F#8 9#8 0xC0#8 0xC0#8)
    t.readCell (0x1F * 64 + 0x3F) = true ∧ t.readCell (0x1F * 64) = true ∧ t.readCell 0x3F = true ∧
    t.readCell 0 = true ∧ t.readCell 1 = false ∧ t.getV 0xF#4 = 0#8 := by decide

/-- L2.6 rows 4 and 8. -/
theorem test_drw_reads_vf_first :
    (after 0xDF01#16 (sprite 0#8 0#8 5#8 0x80#8 0#8)).readCell 5 = true ∧
    (after 0xDF01#16 (sprite 0#8 0#8 5#8 0x80#8 0#8)).getV 0xF#4 = 0#8 ∧
    (after 0xD011#16 ((sprite 0#8 0#8 5#8 0#8 0#8).setI 0x1000#16)).redraw = false := by decide

/-- The reset state with V2 set and one key down. -/
def keyed (v2 : Byte) (k : Nibble) : State := (State.reset.setV 2#4 v2).writeKey k true

/-- L2.7 rows 1, 2 and 5. -/
theorem test_skp : (after 0xE29E#16 (keyed 5#8 5#4)).pc = 0x204#16 ∧ (after 0xE29E#16 (keyed 5#8 6#4)).pc = 0x202#16 ∧
    (after 0xE29E#16 (keyed 0x15#8 5#4)).pc = 0x204#16 := by decide

/-- L2.7 rows 3 and 4. -/
theorem test_sknp : (after 0xE2A1#16 (keyed 5#8 6#4)).pc = 0x204#16 ∧
    (after 0xE2A1#16 (keyed 5#8 5#4)).pc = 0x202#16 := by decide

/-- L2.7 row 6. -/
theorem test_ld_key_suspends :
    (after 0xF30A#16 State.reset).pc = 0x200#16 ∧ (after 0xF30A#16 State.reset).awaitingKey = true := by decide

/-- L2.7 row 7. -/
theorem test_ld_key_lowest :
    let t := after 0xF30A#16 ((State.reset.writeKey 9#4 true).writeKey 7#4 true)
    t.getV 3#4 = 7#8 ∧ t.pc = 0x202#16 ∧ t.awaitingKey = false := by decide

/-! ## Operations of the host -/

/-- L2.9 calls 1 to 5. -/
theorem test_tickTimers :
    let t := [15, 1, 0, 47].foldl State.tickTimers { State.reset with dt := 5#8, st := 1#8 }
    t.dt = 2#8 ∧ t.st = 0#8 ∧ t.tickAcc.val = 15 ∧ (t.tickTimers 100).dt = 0#8 ∧ (t.tickTimers 100).tickAcc.val = 3 := by
  decide

/-- L1.7: the bytes of the program land at 0x200. -/
theorem test_loadProgram :
    let t := State.reset.loadProgram [0x60#8, 0x05#8, 0x70#8, 0x03#8]
    t.readByte 0x200#12 = 0x60#8 ∧ t.readByte 0x203#12 = 0x03#8 ∧ t.pc = 0x200#16 ∧
    t.loadedSize.map (fun n => n.val) = some 4 := by decide

/-- R38: glyph 0 at 0x050, glyph F at 0x09B; 0x04F and 0x0A0 read 0. -/
theorem test_reset_glyphs : State.reset.readByte 0x050#12 = 0xF0#8 ∧ State.reset.readByte 0x09F#12 = 0x80#8 ∧
    State.reset.readByte 0x04F#12 = 0#8 ∧ State.reset.readByte 0x0A0#12 = 0#8 := by decide

/-- R211: the diagnostic codes. -/
theorem test_codes : (Diagnostic.unknownOpcode 0#16 0#16).code = 1 ∧ (Diagnostic.stackOverflow 0#16).code = 2 ∧
    (Diagnostic.stackUnderflow 0#16).code = 3 ∧ (Diagnostic.programCounterOutOfBounds 0#16).code = 4 ∧
    (Diagnostic.capacityExceeded 0).code = 5 ∧ (Diagnostic.memoryAccessOutOfBounds 0#16 0).code = 6 := by decide

/-! ## Witnesses: a state and operands that meet the hypotheses of each statement that has some, clause by clause -/

/-- The reset state at a PC. -/
def atPc (pc : Word) : State := { State.reset with pc := pc }

/-- The reset state with `n` stack entries in use. -/
def depth (n : Fin 17) : State := { State.reset with sp := n }

theorem test_witness_DecodeOfEncodeIsTheInstruction :
    (Instr.drw 0xF#4 0xF#4 0xF#4).wellFormed = true ∧ (Instr.sys 0x0EF#12).wellFormed = true := by decide

theorem test_witness_EncodeOfDecodeIsTheWord :
    decode 0xDFFF#16 = .ok (.drw 0xF#4 0xF#4 0xF#4) ∧ decode 0x0FFF#16 = .ok (.sys 0xFFF#12) := by decide

/-- One word of each of the five unknown ranges, at its lowest or highest field, and one beside them. -/
theorem test_witness_UnknownWordsAreTheListedOnes :
    (fieldOp 0x5001#16 = 0x5#4 ∧ fieldN 0x5001#16 ≠ 0#4) ∧ (fieldOp 0x9FFF#16 = 0x9#4 ∧ fieldN 0x9FFF#16 ≠ 0#4) ∧
    (fieldOp 0x8008#16 = 0x8#4 ∧ fieldN 0x8008#16 ∈ [0x8#4, 0x9#4, 0xA#4, 0xB#4, 0xC#4, 0xD#4, 0xF#4]) ∧
    (fieldOp 0xE09F#16 = 0xE#4 ∧ fieldKk 0xE09F#16 ∉ [0x9E#8, 0xA1#8]) ∧
    (fieldOp 0xFF66#16 = 0xF#4 ∧
      fieldKk 0xFF66#16 ∉ [0x07#8, 0x0A#8, 0x15#8, 0x18#8, 0x1E#8, 0x29#8, 0x33#8, 0x55#8, 0x65#8]) ∧
    (fieldOp 0x800E#16 = 0x8#4 ∧ fieldN 0x800E#16 ∉ [0x8#4, 0x9#4, 0xA#4, 0xB#4, 0xC#4, 0xD#4, 0xF#4]) := by decide

/-- PC at the last fetchable address, and its word. -/
theorem test_witness_StepRunsTheDecodedInstruction :
    let s := (atPc 0xFFE#16).storeWordAtPc 0x1234#16
    s.pc.toNat ≤ 0xFFE ∧
    decode (s.readByte (BitVec.ofNat 12 s.pc.toNat) ++ s.readByte (BitVec.ofNat 12 (s.pc.toNat + 1))) =
      .ok (.jp 0x234#12) := by decide

theorem test_witness_StepReportsAnUnknownOpcode :
    let s := (atPc 0xFFE#16).storeWordAtPc 0x5121#16
    s.pc.toNat ≤ 0xFFE ∧
    0x5121#16 = s.readByte (BitVec.ofNat 12 s.pc.toNat) ++ s.readByte (BitVec.ofNat 12 (s.pc.toNat + 1)) ∧
    decode 0x5121#16 = .error (.unknownOpcode 0x5121#16) := by decide

theorem test_witness_StepRecoversAnOutOfBoundsPc :
    0xFFE < (atPc 0xFFF#16).pc.toNat ∧ 0xFFE < (atPc 0x10FE#16).pc.toNat := by decide

/-- A next state: by the PC bound, by an unknown word, by an instruction that completes, by 00EE, 2NNN and FX33 that
take their diagnostic. -/
theorem test_witness_StepRaisesAtMostOneDiagnostic :
    step (atPc 0xFFF#16) = .next (next (atPc 0xFFF#16)) ∧
    step (State.reset.storeWordAtPc 0xE000#16) = .next (after 0xE000#16 State.reset) ∧
    step (State.reset.storeWordAtPc 0x6F12#16) = .next (after 0x6F12#16 State.reset) ∧
    step ((depth 0).storeWordAtPc 0x00EE#16) = .next (after 0x00EE#16 (depth 0)) ∧
    step ((depth 16).storeWordAtPc 0x2300#16) = .next (after 0x2300#16 (depth 16)) ∧
    step ((State.reset.setI 0xFFE#16).storeWordAtPc 0xF033#16) =
      .next (after 0xF033#16 (State.reset.setI 0xFFE#16)) := by
  refine ⟨?_, ?_, ?_, ?_, ?_, ?_⟩ <;> rfl

theorem test_witness_StepChangesOnlyWhatItsInstructionWrites :
    step (State.reset.storeWordAtPc 0x8014#16) = .next (after 0x8014#16 State.reset) := by rfl

theorem test_witness_EveryStepKeepsTheInvariant :
    (depth 16).Inv ∧ step (depth 16) = .next (next (depth 16)) := by
  refine ⟨⟨by decide, by decide, ?_⟩, rfl⟩
  decide

theorem test_witness_EveryRunKeepsTheInvariant :
    (depth 16).Inv ∧ (depth 16).run [.writeKey 3#4 true, .step, .tickTimers 16] =
      .next ((next ((depth 16).writeKey 3#4 true)).tickTimers 16) :=
  ⟨test_witness_EveryStepKeepsTheInvariant.1, rfl⟩

/-- A step that suspends and one that does not. -/
theorem test_witness_StepResultSaysWhatHappened :
    step (State.reset.storeWordAtPc 0xF30A#16) = .next (after 0xF30A#16 State.reset) ∧
    step (atPc 0xFFF#16) = .next (next (atPc 0xFFF#16)) := ⟨rfl, rfl⟩

/-- The shallowest and the deepest stack a return may meet. -/
theorem test_witness_RetPopsTheReturnAddress : (depth 1).sp.val = (0 : Fin 16).val + 1 ∧
    (depth 16).sp.val = (15 : Fin 16).val + 1 := by decide

/-- The shallowest and the deepest stack a call may meet. -/
theorem test_witness_CallPushesTheReturnAddress : (depth 0).sp.val = (0 : Fin 16).val ∧
    (depth 15).sp.val = (15 : Fin 16).val := by decide

theorem test_witness_StackLimitsAreReported : (depth 0).sp.val = 0 ∧ (depth 16).sp.val = 16 := by decide

theorem test_witness_ReturnUndoesItsCall : (depth 0).sp.val < 16 ∧ (depth 15).sp.val < 16 := by decide

theorem test_witness_JumpSetsPc : (atPc 0xFFF#16).pc.toNat = (0xFFF#12).toNat ∧ (atPc 0xFFF#16).awaitingKey = false := by
  decide

/-- Equal and unequal, the byte at either end of its range. -/
theorem test_witness_ByteSkipsCompareVx :
    (with01F 0xFF#8 0#8 0#8).getV 0#4 = 0xFF#8 ∧ (with01F 0#8 0#8 0#8).getV 0xF#4 ≠ 0xFF#8 := by decide

theorem test_witness_RegisterSkipsCompareVxVy :
    (with01F 2#8 2#8 0#8).getV 0#4 = (with01F 2#8 2#8 0#8).getV 1#4 ∧
    (with01F 2#8 2#8 0#8).getV 0#4 ≠ (with01F 2#8 2#8 0#8).getV 0xF#4 ∧ (0#4 : Nibble) = 0#4 ∧ (1#4 : Nibble) ≠ 0#4 ∧
    (0xF#4 : Nibble) ≠ 0#4 := by decide

/-- `x` other than F, and `x` = F under both flag orders (the clauses of `ResultAndFlag`). -/
theorem test_witness_ResultAndFlag : (0xE#4 : Nibble) ≠ 0xF#4 ∧ State.reset.params.flagOrder = .flagLast ∧
    (flagFirst State.reset).params.flagOrder = .flagFirst := by decide

/-- The highest I at which three bytes are in memory, and the lowest at which they are not; none under `wrap`. -/
theorem test_witness_BcdStoresThreeDigits : MayAccess (State.reset.setI 0xFFD#16) 3 ∧
    ¬MayAccess (State.reset.setI 0xFFE#16) 3 ∧ MayAccess (wrapping (State.reset.setI 0xFFFF#16)) 3 := by
  unfold MayAccess; decide

theorem test_witness_BlockStoreCopiesRegisters : MayAccess (State.reset.setI 0xFFF#16) ((0#4).toNat + 1) ∧
    MayAccess (State.reset.setI 0xFF0#16) ((0xF#4).toNat + 1) ∧
    ¬MayAccess (State.reset.setI 0xFF1#16) ((0xF#4).toNat + 1) ∧ ¬MayAccess (State.reset.setI 0xFFFF#16) ((0#4).toNat + 1) ∧
    (0xF#4).toNat ≤ (0xF#4).toNat := by unfold MayAccess; decide

theorem test_witness_BlockLoadFillsRegisters : MayAccess (wrapping (State.reset.setI 0xFFFF#16)) ((0xF#4).toNat + 1) ∧
    MayAccess (State.reset.setI 0xFF0#16) ((0xF#4).toNat + 1) ∧
    ¬MayAccess (State.reset.setI 0xFF1#16) ((0xF#4).toNat + 1) ∧ (0#4).toNat ≤ (0xF#4).toNat := by
  unfold MayAccess; decide

theorem test_witness_DataAddressesAreIPlusOffset : (MayAccess (State.reset.setI 0xFF0#16) 16 ∧ 15 < 16 ∧
    (State.reset.setI 0xFF0#16).params.dataOob = .skip) ∧ MayAccess (wrapping (State.reset.setI 0xFFFF#16)) 16 ∧
    (wrapping (State.reset.setI 0xFFFF#16)).params.dataOob = .wrap := by unfold MayAccess; decide

/-- FX55 of one register onto PC + 2 and onto PC + 3, FX33 from I at PC, whose last digit falls on PC + 2, stores that reach
neither byte, and a program of two bytes and one that fills memory. -/
theorem test_witness_StoreIsSeenByTheNextFetch :
    (let s := (atPc 0xFFC#16).setI 0xFFE#16
     s.pc.toNat ≤ 0xFFC ∧ MayAccess s ((0#4).toNat + 1) ∧ (s.dataAddr 0).toNat = s.pc.toNat + 2) ∧
    (let s := (atPc 0xFFC#16).setI 0xFFF#16
     MayAccess s ((0#4).toNat + 1) ∧ (s.dataAddr 0).toNat = s.pc.toNat + 3) ∧
    (let s := (atPc 0x200#16).setI 0x200#16
     s.pc.toNat ≤ 0xFFC ∧ MayAccess s 3 ∧ (s.dataAddr 2).toNat = s.pc.toNat + 2) ∧
    (let s := (atPc 0x200#16).setI 0x300#16
     MayAccess s 3 ∧ ∀ k < 3, (s.dataAddr k).toNat ≠ s.pc.toNat + 2 ∧ (s.dataAddr k).toNat ≠ s.pc.toNat + 3) ∧
    ([] : List Byte).length + 2 ≤ 3584 ∧ (List.replicate 3582 (1#8 : Byte)).length + 2 ≤ 3584 := by
  rw [List.length_replicate]; unfold MayAccess; decide

/-- A 0-row sprite at any I, and the highest I of a 15-row one. -/
theorem test_witness_DrawXorsTheCoveredCells : MayAccess (State.reset.setI 0xFFFF#16) (0#4).toNat ∧
    MayAccess (State.reset.setI 0xFF1#16) (0xF#4).toNat := by unfold MayAccess; decide

/-- The same sprite over a framebuffer whose column 0 is lit. -/
def litSprite : State := { sprite 0#8 0#8 0#8 0x80#8 0#8 with fb := Vector.replicate 32 1#64 }

/-- A lit cell under a set sprite bit, and a blank framebuffer with none. -/
theorem test_witness_DrawXorsTheCoveredCells_collision :
    (litSprite.readCell (0 * 64 + 0) = true ∧ SpriteCovers litSprite 0 0 1 0 0) ∧
    ¬∃ px < 64, ∃ py < 32, State.reset.readCell (py * 64 + px) = true ∧ SpriteCovers State.reset 0 0 1 px py := by
  refine ⟨⟨by decide, 0, by decide, 0, by decide, by decide⟩, ?_⟩
  rintro ⟨px, -, py, -, h, -⟩
  simp [State.readCell, Framebuffer.cell, Framebuffer.pixel, State.reset] at h

theorem test_witness_DrawBeyondMemoryIsReported : ¬MayAccess (State.reset.setI 0x1000#16) (1#4).toNat ∧
    ¬MayAccess (State.reset.setI 0xFF2#16) (0xF#4).toNat := by unfold MayAccess; decide

theorem test_witness_DrawingTwiceErases : (0#4 : Nibble) ≠ 0xF#4 ∧ (1#4 : Nibble) ≠ 0xF#4 ∧
    MayAccess (sprite 0#8 0#8 0#8 0x80#8 0#8) (1#4).toNat ∧
    (∀ j < 2048, (sprite 0#8 0#8 0#8 0x80#8 0#8).readCell j = false) ∧
    (sprite 0#8 0#8 0#8 0x80#8 0#8).readByte ((sprite 0#8 0#8 0#8 0x80#8 0#8).dataAddr 0) ≠ 0#8 := by
  refine ⟨by decide, by decide, by unfold MayAccess; decide, fun j _ => ?_, by decide⟩
  change Framebuffer.cell (Vector.replicate 32 0#64) j = false
  simp [Framebuffer.cell, Framebuffer.pixel]

theorem test_witness_KeySkipsReadTheKey : (0xF#4).toNat = ((keyed 0x1F#8 0xF#4).getV 2#4).toNat % 16 ∧
    (keyed 0x1F#8 0xF#4).keyDown 0xF#4 = true ∧ (keyed 0x1F#8 0#4).keyDown 0xF#4 = false := by decide

theorem test_witness_KeyWaitTakesTheLowestKey :
    (State.reset.writeKey 0xF#4 true).keyDown 0xF#4 = true ∧
    (∀ j : Nibble, j.toNat < (0xF#4).toNat → (State.reset.writeKey 0xF#4 true).keyDown j = false) := by decide

theorem test_witness_KeyWaitSuspendsWithNoKey : ∀ k, State.reset.keyDown k = false := by decide

/-- A byte below and a byte above the glyphs, for both FONT_BASE settings of the statement. -/
theorem test_witness_ResetLeavesTheListedValues : (0x04F#12).toNat < State.reset.params.fontBase.addr ∧
    State.reset.params.fontBase.addr + 80 ≤ (0x0A0#12).toNat := by decide

/-- An empty program and one that fills memory, which leaves bytes below 0x200 alone. -/
theorem test_witness_LoadProgramCopiesOverAReset : ([] : List Byte).length ≤ 3584 ∧
    (List.replicate 3584 (1#8 : Byte)).length ≤ 3584 ∧ (0x1FF#12).toNat < 0x200 ∧
    0x200 + ([1#8] : List Byte).length ≤ (0x201#12).toNat ∧ 0 < ([1#8] : List Byte).length := by
  refine ⟨by decide, by rw [List.length_replicate], by decide, by decide, by decide⟩

theorem test_witness_LoadProgramOverCapacityFails : 3584 < (List.replicate 3585 (1#8 : Byte)).length := by
  rw [List.length_replicate]; decide

theorem test_witness_NothingRunsBeforeReset : Op.step ≠ .reset ∧ Op.loadProgram [] ≠ .reset := by decide

end Sys2Proof.Tests
end

section
/-! SUPPORT. The rows of the opcode table as conditions on the fields of a word, and the agreement of `decode` with the
first row a word fits (40_step_cycle.md R103). -/

namespace Sys2Proof

/-! ### The match rule by mask, field by field -/

@[simp] theorem Row.fits_word (m : String) (v w : Word) :
    Row.fits ⟨m, v, 0xFFFF#16⟩ w =
      decide ((fieldOp w).toNat = v.toNat / 0x1000 ∧ (fieldNnn w).toNat = v.toNat % 0x1000) := by
  rw [Row.fits, show w &&& 0xFFFF#16 = w from BitVec.and_allOnes, Bool.eq_iff_iff, beq_iff_eq, decide_eq_true_iff,
    ← BitVec.toNat_inj]
  simp only [fieldOp, fieldNnn, toNat_field]
  omega

@[simp] theorem Row.fits_op (m : String) (v w : Word) :
    Row.fits ⟨m, v, 0xF000#16⟩ w = decide ((fieldOp w).toNat = v.toNat / 0x1000 ∧ v.toNat % 0x1000 = 0) := by
  have hmask := formN_and_op (fieldOp w) (fieldNnn w)
  rw [← word_formN] at hmask
  rw [Row.fits, hmask, Bool.eq_iff_iff, beq_iff_eq, decide_eq_true_iff, ← BitVec.toNat_inj]
  simp only [toNat_concat, BitVec.toNat_ofNat]
  omega

@[simp] theorem Row.fits_opN (m : String) (v w : Word) :
    Row.fits ⟨m, v, 0xF00F#16⟩ w =
      decide ((fieldOp w).toNat = v.toNat / 0x1000 ∧ (fieldN w).toNat = v.toNat % 0x1000) := by
  have hmask := formXYN_and_sub (fieldOp w) (fieldX w) (fieldY w) (fieldN w)
  rw [← word_formXYN] at hmask
  rw [Row.fits, hmask, Bool.eq_iff_iff, beq_iff_eq, decide_eq_true_iff, ← BitVec.toNat_inj]
  simp only [toNat_concat, BitVec.toNat_ofNat]
  omega

@[simp] theorem Row.fits_opKk (m : String) (v w : Word) :
    Row.fits ⟨m, v, 0xF0FF#16⟩ w =
      decide ((fieldOp w).toNat = v.toNat / 0x1000 ∧ (fieldKk w).toNat = v.toNat % 0x1000) := by
  have hmask := formXK_and_sub (fieldOp w) (fieldX w) (fieldKk w)
  rw [← word_formXK] at hmask
  rw [Row.fits, hmask, Bool.eq_iff_iff, beq_iff_eq, decide_eq_true_iff, ← BitVec.toNat_inj]
  simp only [toNat_concat, BitVec.toNat_ofNat]
  omega

/-! ### The rows of one opcode family -/

/-- The rows of the table whose value has the opcode `op`, in the table's order. -/
def familyRows (op : Nibble) : List Row := opcodeTable.filter fun r => fieldOp r.value = op

/-- Every mask of the table keeps the whole opcode, so a word fits rows of its own family only. -/
theorem Row.fieldOp_of_fits {r : Row} (hr : r ∈ opcodeTable) {w : Word} (h : r.fits w = true) :
    fieldOp r.value = fieldOp w := by
  have hmask : ∀ r ∈ opcodeTable, fieldOp r.mask = BitVec.allOnes 4 := by decide
  have hop : fieldOp (w &&& r.mask) = fieldOp w &&& fieldOp r.mask := BitVec.extractLsb'_and
  rw [← beq_iff_eq.1 h, hop, hmask r hr, BitVec.and_allOnes]

/-- The mnemonic of the first row of the table a word fits (R103). -/
def firstMnemonic (w : Word) : Option String := (opcodeTable.find? (·.fits w)).map Row.mnemonic

theorem firstMnemonic_of_rows {w : Word} {op : Nibble} {rows : List Row} (h : fieldOp w = op)
    (hrows : familyRows op = rows) : firstMnemonic w = (rows.find? (·.fits w)).map Row.mnemonic := by
  subst hrows h
  rw [firstMnemonic, familyRows, List.find?_filter]
  congr 1
  refine List.find?_congr fun r hr => ?_
  cases hfit : r.fits w
  · simp
  · simp [Row.fieldOp_of_fits hr hfit]

/-! ### `decode` and the first fitting row, family by family -/

/-- The mnemonic of what a word decodes to, if it decodes. -/
def decodedMnemonic (d : Except Reject Instr) : Option String := d.toOption.map Instr.mnemonic

@[simp] theorem decodedMnemonic_ok (i : Instr) : decodedMnemonic (.ok i) = some i.mnemonic := rfl
@[simp] theorem decodedMnemonic_error (r : Reject) : decodedMnemonic (.error r) = none := rfl

/-- A family of one row with the mask F000 takes every word of its opcode. -/
theorem firstMnemonic_of_opRow {w v : Word} {op : Nibble} {m : String} (h : fieldOp w = op)
    (hrow : familyRows op = [⟨m, v, 0xF000#16⟩]) (hop : v.toNat / 0x1000 = op.toNat) (hlow : v.toNat % 0x1000 = 0) :
    firstMnemonic w = some m := by
  rw [firstMnemonic_of_rows h hrow]
  simp [h, hop, hlow]

/-- R89: a family of one row with the mask F00F takes the words of its opcode with `n` = 0. -/
theorem firstMnemonic_of_opZeroRow {w v : Word} {op : Nibble} {i : Instr} (h : fieldOp w = op)
    (hrow : familyRows op = [⟨i.mnemonic, v, 0xF00F#16⟩]) (hop : v.toNat / 0x1000 = op.toNat)
    (hlow : v.toNat % 0x1000 = 0) :
    firstMnemonic w = decodedMnemonic (if fieldN w = 0#4 then .ok i else .error (.unknownOpcode w)) := by
  rw [firstMnemonic_of_rows h hrow]
  by_cases hn : fieldN w = 0#4
  · simp [h, hop, hlow, hn]
  · have hn' : (fieldN w).toNat ≠ 0 := fun e => hn (BitVec.eq_of_toNat_eq e)
    simp [h, hop, hlow, hn, hn']

theorem word_eq_of_fields {w v : Word} (hop : fieldOp w = fieldOp v)
    (hnnn : (fieldNnn w).toNat = (fieldNnn v).toNat) : w = v := by
  rw [word_formN w, hop, BitVec.eq_of_toNat_eq hnnn, ← word_formN]

/-- Family 0x0: CLS, RET, SYS, in this order (R85). -/
theorem firstMnemonic_family0 {w : Word} (h : fieldOp w = 0x0#4) :
    firstMnemonic w = some (decodeFamily0 w).mnemonic := by
  rw [firstMnemonic_of_rows h (show _ = tableLow.take 3 from rfl)]
  unfold decodeFamily0
  split
  next hcls => subst hcls; rfl
  next hcls =>
    split
    next hret => subst hret; rfl
    next hret =>
      have hcls' : (fieldNnn w).toNat ≠ 0x0E0 := fun e => hcls (word_eq_of_fields h e)
      have hret' : (fieldNnn w).toNat ≠ 0x0EE := fun e => hret (word_eq_of_fields h e)
      simp [tableLow, h, hcls', hret', Instr.mnemonic]

theorem firstMnemonic_family8 {w : Word} (h : fieldOp w = 0x8#4) :
    firstMnemonic w = decodedMnemonic (decodeFamily8 w) := by
  rw [firstMnemonic_of_rows h (show _ = tableLow.drop 10 ++ tableHigh.take 1 from rfl)]
  unfold decodeFamily8
  split <;> simp_all [tableLow, tableHigh, Instr.mnemonic]

theorem firstMnemonic_familyE {w : Word} (h : fieldOp w = 0xE#4) :
    firstMnemonic w = decodedMnemonic (decodeFamilyE w) := by
  rw [firstMnemonic_of_rows h (show _ = (tableHigh.drop 6).take 2 from rfl)]
  unfold decodeFamilyE
  split <;> simp_all [tableHigh, Instr.mnemonic]

theorem firstMnemonic_familyF {w : Word} (h : fieldOp w = 0xF#4) :
    firstMnemonic w = decodedMnemonic (decodeFamilyF w) := by
  rw [firstMnemonic_of_rows h (show _ = tableHigh.drop 8 from rfl)]
  unfold decodeFamilyF
  split <;> simp_all [tableHigh, Instr.mnemonic]

/-- R103: the first row a word fits has the mnemonic of what the word decodes to. -/
theorem firstMnemonic_eq_decode (w : Word) : firstMnemonic w = decodedMnemonic (decode w) := by
  rcases nibble_cases (fieldOp w) with h | h | h | h | h | h | h | h | h | h | h | h | h | h | h | h <;>
    simp only [decode, h]
  · exact firstMnemonic_family0 h
  · exact firstMnemonic_of_opRow h rfl rfl rfl
  · exact firstMnemonic_of_opRow h rfl rfl rfl
  · exact firstMnemonic_of_opRow h rfl rfl rfl
  · exact firstMnemonic_of_opRow h rfl rfl rfl
  · exact firstMnemonic_of_opZeroRow h rfl rfl rfl
  · exact firstMnemonic_of_opRow h rfl rfl rfl
  · exact firstMnemonic_of_opRow h rfl rfl rfl
  · exact firstMnemonic_family8 h
  · exact firstMnemonic_of_opZeroRow h rfl rfl rfl
  · exact firstMnemonic_of_opRow h rfl rfl rfl
  · exact firstMnemonic_of_opRow h rfl rfl rfl
  · exact firstMnemonic_of_opRow h rfl rfl rfl
  · exact firstMnemonic_of_opRow h rfl rfl rfl
  · exact firstMnemonic_familyE h
  · exact firstMnemonic_familyF h

/-- Settles O5: both sides of `firstMnemonic_eq_decode` name a mnemonic, or neither does. -/
theorem decodeFollowsTheOpcodeTable : Obligations.DecodeFollowsTheOpcodeTable := by
  intro w
  have hmnemonic := firstMnemonic_eq_decode w
  cases hdecode : decode w with
  | ok i =>
    rw [hdecode, decodedMnemonic_ok, firstMnemonic, Option.map_eq_some_iff] at hmnemonic
    obtain ⟨r, hr, hm⟩ := hmnemonic
    exact .inl ⟨i, r, rfl, hr, hm⟩
  | error e =>
    rw [hdecode, decodedMnemonic_error, firstMnemonic, Option.map_eq_none_iff] at hmnemonic
    exact .inr ⟨by rw [decode_error hdecode], hmnemonic⟩

end Sys2Proof
end

section
/-! SUPPORT. The two cases of a step that fetches a word: it decodes (40_step_cycle.md R102), or it is unknown (R105). -/

namespace Sys2Proof.Machine

variable {s : State}

theorem State.fetchable_iff : s.fetchable = true ↔ s.pc.toNat ≤ 0xFFE := decide_eq_true_iff

theorem step_of_ok {i : Instr} (hpc : s.pc.toNat ≤ 0xFFE) (h : decode s.fetchWord = .ok i) : step s = exec i s := by
  rw [step, if_pos (State.fetchable_iff.2 hpc), h]

theorem step_of_error {r : Reject} (hpc : s.pc.toNat ≤ 0xFFE) (h : decode s.fetchWord = .error r) :
    step s = .next (s.recoverUnknown s.fetchWord) := by
  rw [step, if_pos (State.fetchable_iff.2 hpc), h]

/-- Settles O6: the big-endian pair at PC is the word `step` decodes. -/
theorem stepRunsTheDecodedInstruction : Obligations.StepRunsTheDecodedInstruction :=
  fun _ _ hpc hdecode => step_of_ok hpc hdecode

/-- Settles O7: the step takes the diagnostic and its recovery, which changes the log alone. -/
theorem stepReportsAnUnknownOpcode : Obligations.StepReportsAnUnknownOpcode := by
  intro s w hpc hw hdecode
  have hfetch : w = s.fetchWord := hw
  subst hfetch
  exact ⟨s.recoverUnknown s.fetchWord, step_of_error hpc hdecode, rfl, rfl, State.recover_changes s _ _⟩

end Sys2Proof.Machine
end

section
/-! SUPPORT. The two ends of a skip instruction (40_step_cycle.md R104), and the byte skips 3XNN and 4XNN
(41_control_flow.md R125, R126). -/

namespace Sys2Proof.Machine

variable (s : State)

@[simp] theorem State.skipIf_true : s.skipIf true = s.retire .skip := rfl
@[simp] theorem State.skipIf_false : s.skipIf false = s.retire .advance := rfl

/-- A skip instruction moves PC alone, whether it skips or not. -/
theorem State.skipIf_changes (c : Bool) (parts : List Part) : OnlyChanges parts s (s.skipIf c) :=
  State.retire_changes s _ parts

/-- Where the condition of a skip instruction says `P`, it ends with PC + 4 if `P` holds and with PC + 2 if not. -/
theorem State.skipIf_pc_cases {c : Bool} {P : Prop} (h : c = true ↔ P) :
    (P → (s.skipIf c).pc = s.pc + 4#16) ∧ (¬P → (s.skipIf c).pc = s.pc + 2#16) := by
  cases c with
  | true => exact ⟨fun _ => by simp, fun hP => absurd (h.1 rfl) hP⟩
  | false => exact ⟨fun hP => absurd (h.2 hP) Bool.false_ne_true, fun _ => by simp⟩

theorem decode_seByte (x : Nibble) (kk : Byte) : decode (0x3#4 ++ x ++ kk) = .ok (.seByte x kk) := by simp [decode]

theorem decode_sneByte (x : Nibble) (kk : Byte) : decode (0x4#4 ++ x ++ kk) = .ok (.sneByte x kk) := by simp [decode]

theorem exec_seByte (x : Nibble) (kk : Byte) : exec (.seByte x kk) s = .next (s.skipIf (s.getV x == kk)) := rfl

theorem exec_sneByte (x : Nibble) (kk : Byte) : exec (.sneByte x kk) s = .next (s.skipIf (s.getV x != kk)) := rfl

/-- Settles O23: both are skips, on `Vx = kk` and on its negation. -/
theorem byteSkipsCompareVx : Obligations.ByteSkipsCompareVx := by
  intro x kk s
  obtain ⟨hequal, hunequal⟩ := State.skipIf_pc_cases s (beq_iff_eq (a := s.getV x) (b := kk))
  obtain ⟨hdiffers, hsame⟩ := State.skipIf_pc_cases s (bne_iff_ne (a := s.getV x) (b := kk))
  exact ⟨decode_seByte x kk, decode_sneByte x kk,
    ⟨_, exec_seByte s x kk, State.skipIf_changes s _ [], hequal, hunequal⟩,
    ⟨_, exec_sneByte s x kk, State.skipIf_changes s _ [], hdiffers, fun heq => hsame (not_not_intro heq)⟩⟩

end Sys2Proof.Machine
end

section
/-! SUPPORT. What the end of an instruction with one result leaves in Vx and PC, and 6XNN (42_alu.md R141). -/

namespace Sys2Proof.Machine

variable (s : State)

@[simp] theorem State.getV_finishV_same (x : Nibble) (r : Byte) : (s.finishV x r).getV x = r := by
  simp [State.finishV]

@[simp] theorem State.finishV_pc (x : Nibble) (r : Byte) : (s.finishV x r).pc = s.pc + 2#16 := rfl

theorem decode_ldByte (x : Nibble) (kk : Byte) : decode (0x6#4 ++ x ++ kk) = .ok (.ldByte x kk) := by simp [decode]

theorem exec_ldByte (x : Nibble) (kk : Byte) : exec (.ldByte x kk) s = .next (s.finishV x kk) := rfl

/-- Settles O26: the byte is the one result of the instruction, and it goes to Vx. -/
theorem loadImmediateWritesVx : Obligations.LoadImmediateWritesVx := by
  intro x kk s
  exact ⟨decode_ldByte x kk, s.finishV x kk, exec_ldByte s x kk, State.getV_finishV_same s x kk,
    State.finishV_pc s x kk, State.finishV_changes s x kk⟩

end Sys2Proof.Machine
end

section
/-! SUPPORT. A new framebuffer as the end of an instruction (45_display_keys.md R190, R191): what the host reads from it
and what it leaves unchanged; 00E0 (R190). -/

namespace Sys2Proof.Machine

variable (s : State)

@[simp] theorem Framebuffer.cell_blank (j : Nat) : Framebuffer.cell Framebuffer.blank j = false :=
  Framebuffer.pixel_blank _ _

@[simp] theorem State.readCell_showFrame (f : Framebuffer) (j : Nat) :
    (s.showFrame f).readCell j = Framebuffer.cell f j := rfl

@[simp] theorem State.readCell_retire (n : Next) (j : Nat) : (s.retire n).readCell j = s.readCell j := rfl

/-- Showing a framebuffer changes it and the redraw flag alone. -/
theorem State.showFrame_changes (f : Framebuffer) (n : Next) :
    OnlyChanges [.fb, .redraw] s ((s.showFrame f).retire n) := by
  simp [OnlyChanges]

theorem decode_cls : decode 0x00E0#16 = .ok .cls := by decide

theorem exec_cls : exec .cls s = .next ((s.showFrame Framebuffer.blank).retire .advance) := rfl

/-- Settles O44: 00E0 shows the blank framebuffer, whose every cell is 0. -/
theorem clearScreenBlanksEveryCell : Obligations.ClearScreenBlanksEveryCell := by
  intro s
  have hblank : ∀ j < 2048, ((s.showFrame Framebuffer.blank).retire .advance).readCell j = false := by
    intro j _
    rw [State.readCell_retire, State.readCell_showFrame, Framebuffer.cell_blank]
  exact ⟨decode_cls, _, exec_cls s, hblank, rfl, rfl, State.showFrame_changes s _ _⟩

end Sys2Proof.Machine
end

section
/-! SUPPORT. One tick as an update of the two timers (60_exceptions.md R221). -/

namespace Sys2Proof.Machine

variable (s : State)

/-- R221: a tick takes one from DT and one from ST, not below zero. -/
theorem State.tick_eq :
    s.tick = (s.setDt (BitVec.ofNat 8 (s.dt.toNat - 1))).setSt (BitVec.ofNat 8 (s.st.toNat - 1)) :=
  State.ticks_eq s 1

/-- A byte counted down is still a byte. -/
theorem toNat_ofNat_toNat_sub (b : Byte) (k : Nat) : (BitVec.ofNat 8 (b.toNat - k)).toNat = b.toNat - k := by
  rw [BitVec.toNat_ofNat, Nat.mod_eq_of_lt (Nat.lt_of_le_of_lt (Nat.sub_le _ k) b.isLt)]

/-- Writing the two timers changes them alone. -/
theorem State.setDt_setSt_changes (d t : Byte) : OnlyChanges [.dt, .st] s ((s.setDt d).setSt t) := by
  simp [OnlyChanges]

/-- Settles O41: a tick is a write of the two timers, each with its old value less one. -/
theorem tickDecrementsNonzeroTimers : Obligations.TickDecrementsNonzeroTimers := by
  intro s
  rw [State.tick_eq]
  exact ⟨toNat_ofNat_toNat_sub s.dt 1, toNat_ofNat_toNat_sub s.st 1, rfl, rfl, State.setDt_setSt_changes s _ _⟩

end Sys2Proof.Machine
end

section
/-! SUPPORT. The host's events and the sound-active output (60_exceptions.md R231 to R233). -/

namespace Sys2Proof.Machine

variable (s : State)

theorem State.operate_writeKey (k : Nibble) (down : Bool) :
    s.operate (.writeKey k down) = .next (s.writeKey k down, .nothing) := rfl

theorem State.operate_ackRedraw : s.operate .ackRedraw = .next ({ s with redraw := false }, .nothing) := rfl

/-- The key write changes the key state alone (R233). -/
theorem State.writeKey_only (k : Nibble) (down : Bool) : { s.writeKey k down with key := s.key } = s := rfl

/-- The sound is active exactly when ST, as a number, is not 0 (R232). -/
theorem State.soundActive_iff : s.soundActive = true ↔ s.st.toNat ≠ 0 := by
  rw [State.soundActive, bne_iff_ne, ← BitVec.toNat_ne_iff_ne, BitVec.toNat_ofNat, Nat.zero_mod]

/-- Settles O54: what the key write and the redraw acknowledge answer, and `State.soundActive_iff`. -/
theorem hostEventsChangeOnlyTheirOwn : Obligations.HostEventsChangeOnlyTheirOwn := by
  intro s k down
  exact ⟨⟨s.writeKey k down, State.operate_writeKey s k down, fun j => State.keyDown_writeKey s k j down,
    State.writeKey_only s k down⟩, State.operate_ackRedraw s, State.soundActive_iff s⟩

end Sys2Proof.Machine
end

section
/-! SUPPORT. A program over the capacity of the core (70_reset_and_hazards.md R251). -/

namespace Sys2Proof.Machine

variable (s : State)

theorem State.operate_loadProgram (bytes : List Byte) : s.operate (.loadProgram bytes) =
    .next (s.loadProgram bytes, if bytes.length ≤ 3584 then .loaded else .capacityExceeded) := rfl

/-- Over 3584 bytes the load ends before the reset and the copy: it is a raise (R251). -/
theorem State.loadProgram_of_capacity_lt {bytes : List Byte} (hover : 3584 < bytes.length) :
    s.loadProgram bytes = s.raise (.capacityExceeded bytes.length) :=
  dif_neg hover.not_ge

/-- Settles O53: the load is a raise, which changes the log alone, and it answers the failure. -/
theorem loadProgramOverCapacityFails : Obligations.LoadProgramOverCapacityFails := by
  intro s bytes hover
  rw [State.operate_loadProgram, State.loadProgram_of_capacity_lt s hover, if_neg hover.not_ge, State.raise]

end Sys2Proof.Machine
end

section
/-! SUPPORT. The round trips between instructions and words (30_encoding.md R82 to R88, 40_step_cycle.md R103), and the
words of R90 that are no instruction. -/

namespace Sys2Proof

/-! ### From an instruction to its word and back -/

/-- R85: a SYS word that is neither 00E0 nor 00EE decodes to SYS. -/
theorem decodeFamily0_of_ne {w : Word} (hcls : w ≠ 0x00E0#16) (hret : w ≠ 0x00EE#16) :
    decodeFamily0 w = .sys (fieldNnn w) := by
  rw [decodeFamily0, if_neg hcls, if_neg hret]

theorem decode_sys {nnn : Addr} (hcls : nnn ≠ 0x0E0#12) (hret : nnn ≠ 0x0EE#12) :
    decode (0x0#4 ++ nnn) = .ok (.sys nnn) := by
  have field_ne : ∀ v : Word, nnn ≠ fieldNnn v → 0x0#4 ++ nnn ≠ v := by
    rintro v hne rfl
    exact hne (fieldNnn_formN 0x0#4 nnn).symm
  have hfamily := decodeFamily0_of_ne (field_ne 0x00E0#16 hcls) (field_ne 0x00EE#16 hret)
  rw [fieldNnn_formN] at hfamily
  simp [decode, hfamily]

theorem decode_encode {i : Instr} (h : i.wellFormed = true) : decode (encode i) = .ok i := by
  cases i with
  | cls | ret => rfl
  | sys nnn =>
    simp only [Instr.wellFormed, Bool.and_eq_true, bne_iff_ne] at h
    exact decode_sys h.1 h.2
  | jp | call | ldI | jpV0 => simp [encode, decode]
  | seByte | sneByte | ldByte | addByte | rnd => simp [encode, decode]
  | seReg | sneReg | drw => simp [encode, decode]
  | ldReg | orReg | andReg | xorReg | addReg | subReg | shr | subnReg | shl => simp [encode, decode, decodeFamily8]
  | skp | sknp => simp [encode, decode, decodeFamilyE]
  | ldVxDt | ldVxK | ldDtVx | ldStVx | addI | ldF | ldB | storeRegs | loadRegs =>
    simp [encode, decode, decodeFamilyF]

/-- Settles O2: `decode_encode`, instruction by instruction. -/
theorem decodeOfEncodeIsTheInstruction : Obligations.DecodeOfEncodeIsTheInstruction :=
  fun _ => decode_encode

/-- Settles O1: fourteen closed words. -/
theorem sanityWordsDecode : Obligations.SanityWordsDecode := by
  unfold Obligations.SanityWordsDecode
  decide

/-! ### From a word to its instruction and back -/

variable {w : Word} {i : Instr}

theorem word_of_op {op : Nibble} (h : fieldOp w = op) : op ++ fieldNnn w = w := by
  subst h; exact (word_formN w).symm

theorem word_of_op_kk {op : Nibble} {kk : Byte} (h : fieldOp w = op) (hkk : fieldKk w = kk) :
    op ++ fieldX w ++ kk = w := by
  subst h hkk; exact (word_formXK w).symm

theorem word_of_op_n {op n : Nibble} (h : fieldOp w = op) (hn : fieldN w = n) :
    op ++ fieldX w ++ fieldY w ++ n = w := by
  subst h hn; exact (word_formXYN w).symm

theorem encode_decodeFamily0 (h : fieldOp w = 0x0#4) :
    (decodeFamily0 w).wellFormed = true ∧ encode (decodeFamily0 w) = w := by
  by_cases hcls : w = 0x00E0#16
  · subst hcls; decide
  by_cases hret : w = 0x00EE#16
  · subst hret; decide
  rw [decodeFamily0_of_ne hcls hret]
  have nnn_ne : ∀ v : Word, fieldOp v = 0x0#4 → w ≠ v → fieldNnn w ≠ fieldNnn v :=
    fun v hv hne e => hne (word_eq_of_fields (h.trans hv.symm) (congrArg BitVec.toNat e))
  refine ⟨?_, word_of_op h⟩
  simp only [Instr.wellFormed, Bool.and_eq_true, bne_iff_ne]
  exact ⟨nnn_ne 0x00E0#16 rfl hcls, nnn_ne 0x00EE#16 rfl hret⟩

theorem encode_of_decodeFamily8 (h : fieldOp w = 0x8#4) (hi : decodeFamily8 w = .ok i) :
    i.wellFormed = true ∧ encode i = w := by
  unfold decodeFamily8 at hi
  split at hi <;> cases hi <;> exact ⟨rfl, word_of_op_n h (BitVec.eq_of_toNat_eq ‹_›)⟩

theorem encode_of_decodeFamilyE (h : fieldOp w = 0xE#4) (hi : decodeFamilyE w = .ok i) :
    i.wellFormed = true ∧ encode i = w := by
  unfold decodeFamilyE at hi
  split at hi <;> cases hi <;> exact ⟨rfl, word_of_op_kk h (BitVec.eq_of_toNat_eq ‹_›)⟩

theorem encode_of_decodeFamilyF (h : fieldOp w = 0xF#4) (hi : decodeFamilyF w = .ok i) :
    i.wellFormed = true ∧ encode i = w := by
  unfold decodeFamilyF at hi
  split at hi <;> cases hi <;> exact ⟨rfl, word_of_op_kk h (BitVec.eq_of_toNat_eq ‹_›)⟩

/-- R89: opcodes 5 and 9 decode with `n` = 0 only. -/
theorem encode_of_decode_opZero {j : Instr} (hj : j.wellFormed = true) (hw : fieldN w = 0#4 → encode j = w)
    (hi : (if fieldN w = 0#4 then .ok j else .error (Reject.unknownOpcode w)) = Except.ok i) :
    i.wellFormed = true ∧ encode i = w := by
  split at hi
  next hn => cases hi; exact ⟨hj, hw hn⟩
  next => cases hi

theorem encode_of_decode (hi : decode w = .ok i) : i.wellFormed = true ∧ encode i = w := by
  rcases nibble_cases (fieldOp w) with h | h | h | h | h | h | h | h | h | h | h | h | h | h | h | h <;>
    simp only [decode, h] at hi
  · cases hi; exact encode_decodeFamily0 h
  · cases hi; exact ⟨rfl, word_of_op h⟩
  · cases hi; exact ⟨rfl, word_of_op h⟩
  · cases hi; exact ⟨rfl, word_of_op_kk h rfl⟩
  · cases hi; exact ⟨rfl, word_of_op_kk h rfl⟩
  · exact encode_of_decode_opZero rfl (word_of_op_n h) hi
  · cases hi; exact ⟨rfl, word_of_op_kk h rfl⟩
  · cases hi; exact ⟨rfl, word_of_op_kk h rfl⟩
  · exact encode_of_decodeFamily8 h hi
  · exact encode_of_decode_opZero rfl (word_of_op_n h) hi
  · cases hi; exact ⟨rfl, word_of_op h⟩
  · cases hi; exact ⟨rfl, word_of_op h⟩
  · cases hi; exact ⟨rfl, word_of_op_kk h rfl⟩
  · cases hi; exact ⟨rfl, word_of_op_n h rfl⟩
  · exact encode_of_decodeFamilyE h hi
  · exact encode_of_decodeFamilyF h hi

/-- Settles O3: `encode_of_decode`, family by family. -/
theorem encodeOfDecodeIsTheWord : Obligations.EncodeOfDecodeIsTheWord :=
  fun _ _ => encode_of_decode

/-! ### The words that decode to nothing -/

@[simp] theorem isOk_ok (i : Instr) : Except.isOk (Except.ok i : Except Reject Instr) = true := rfl
@[simp] theorem isOk_error (r : Reject) : Except.isOk (Except.error r : Except Reject Instr) = false := rfl

/-- The secondary fields with which family 0x8 decodes to nothing (R90). -/
theorem decodeFamily8_isOk_iff (w : Word) :
    (decodeFamily8 w).isOk = true ↔ fieldN w ∉ [0x8#4, 0x9#4, 0xA#4, 0xB#4, 0xC#4, 0xD#4, 0xF#4] := by
  rcases nibble_cases (fieldN w) with h | h | h | h | h | h | h | h | h | h | h | h | h | h | h | h <;>
    simp [decodeFamily8, h]

/-- The low bytes with which family 0xE decodes (R87). -/
theorem decodeFamilyE_isOk_iff (w : Word) : (decodeFamilyE w).isOk = true ↔ fieldKk w ∈ [0x9E#8, 0xA1#8] := by
  simp only [List.mem_cons, List.not_mem_nil, or_false, ← BitVec.toNat_inj, BitVec.reduceToNat]
  unfold decodeFamilyE
  split <;> simp_all

/-- The low bytes with which family 0xF decodes (R88). -/
theorem decodeFamilyF_isOk_iff (w : Word) :
    (decodeFamilyF w).isOk = true ↔
      fieldKk w ∈ [0x07#8, 0x0A#8, 0x15#8, 0x18#8, 0x1E#8, 0x29#8, 0x33#8, 0x55#8, 0x65#8] := by
  simp only [List.mem_cons, List.not_mem_nil, or_false, ← BitVec.toNat_inj, BitVec.reduceToNat]
  unfold decodeFamilyF
  split <;> simp_all

/-- Opcodes 5 and 9 decode with `n` = 0 only (R89). -/
theorem decode_opZero_isOk_iff (i : Instr) :
    (if fieldN w = 0#4 then Except.ok i else Except.error (Reject.unknownOpcode w)).isOk = true ↔ fieldN w = 0#4 := by
  split <;> simp [*]

/-- Settles O4: opcode by opcode, a word decodes exactly outside the five ranges; `decode_error` names the rejection. -/
theorem unknownWordsAreTheListedOnes : Obligations.UnknownWordsAreTheListedOnes := by
  intro w unknown
  have hok : (decode w).isOk = true ↔ ¬unknown := by
    rcases nibble_cases (fieldOp w) with h | h | h | h | h | h | h | h | h | h | h | h | h | h | h | h <;>
      simp [decode, h, decode_opZero_isOk_iff, decodeFamily8_isOk_iff, decodeFamilyE_isOk_iff, decodeFamilyF_isOk_iff,
        unknown, -List.mem_cons]
  cases hdecode : decode w with
  | ok i =>
    rw [hdecode] at hok
    exact ⟨fun hunknown => absurd hunknown (hok.1 rfl), fun _ => ⟨i, rfl⟩⟩
  | error r =>
    rw [hdecode] at hok
    exact ⟨fun _ => by rw [decode_error hdecode], fun hknown => absurd (hok.2 hknown) Bool.false_ne_true⟩

end Sys2Proof
end

section
/-! SUPPORT. The return stack after a call and after a return (10_state.md R26), the targets of the jumps, and the
control flow instructions (41_control_flow.md R121 to R129). -/

namespace Sys2Proof.Machine

variable (s : State)

/-! ### Jump targets -/

@[simp] theorem addrOperand_toNat (nnn : Addr) : (addrOperand nnn).toNat = nnn.toNat := by
  simp only [addrOperand, BitVec.toNat_setWidth]; omega

@[simp] theorem byteOperand_toNat (b : Byte) : (byteOperand b).toNat = b.toNat := by
  simp only [byteOperand, BitVec.toNat_setWidth]; omega

/-- R129: the sum of an address and a byte fits the 16 bits of PC. -/
theorem addrOperand_add_byteOperand_toNat (nnn : Addr) (b : Byte) :
    (addrOperand nnn + byteOperand b).toNat = nnn.toNat + b.toNat := by
  rw [BitVec.toNat_add, addrOperand_toNat, byteOperand_toNat]; omega

/-- Settles O17: SYS is the end of a step and nothing besides. -/
theorem sysIsANoOp : Obligations.SysIsANoOp :=
  fun _ s => ⟨s.retire .advance, rfl, rfl, State.retire_changes s _ _⟩

/-- A jump to PC itself by a core that awaits no key leaves the state as it is (R107). -/
theorem State.retire_jump_self (h : s.awaitingKey = false) : s.retire (.jump s.pc) = s := by
  cases s; cases h; rfl

/-- Settles O22: a jump is the end of a step at its target. -/
theorem jumpSetsPc : Obligations.JumpSetsPc := by
  intro nnn s
  refine ⟨decode_encode (i := .jp nnn) rfl,
    ⟨s.retire (.jump (addrOperand nnn)), rfl, addrOperand_toNat nnn, State.retire_changes s _ _⟩, fun hpc hawait => ?_⟩
  have htarget : addrOperand nnn = s.pc := BitVec.eq_of_toNat_eq ((addrOperand_toNat nnn).trans hpc.symm)
  calc exec (.jp nnn) s = .next (s.retire (.jump s.pc)) := by rw [← htarget]; rfl
    _ = .next s := by rw [State.retire_jump_self s hawait]

/-- Settles O25: the target is `addrOperand_add_byteOperand_toNat`. -/
theorem offsetJumpAddsV0 : Obligations.OffsetJumpAddsV0 :=
  fun nnn s => ⟨decode_encode (i := .jpV0 nnn) rfl, s.retire (.jump (addrOperand nnn + byteOperand (s.getV 0#4))), rfl,
    addrOperand_add_byteOperand_toNat nnn _, State.retire_changes s _ _⟩

/-! ### Register skips -/

theorem decode_seReg_of_ne (x y : Nibble) {n : Nibble} (h : n ≠ 0#4) :
    decode (0x5#4 ++ x ++ y ++ n) = .error (.unknownOpcode (0x5#4 ++ x ++ y ++ n)) := by
  simp [decode, h]

theorem decode_sneReg_of_ne (x y : Nibble) {n : Nibble} (h : n ≠ 0#4) :
    decode (0x9#4 ++ x ++ y ++ n) = .error (.unknownOpcode (0x9#4 ++ x ++ y ++ n)) := by
  simp [decode, h]

/-- Settles O24: both are skips, on `Vx = Vy` and on its negation. -/
theorem registerSkipsCompareVxVy : Obligations.RegisterSkipsCompareVxVy := by
  intro x y n s
  obtain ⟨hequal, hunequal⟩ := State.skipIf_pc_cases s (beq_iff_eq (a := s.getV x) (b := s.getV y))
  obtain ⟨hdiffers, hsame⟩ := State.skipIf_pc_cases s (bne_iff_ne (a := s.getV x) (b := s.getV y))
  refine ⟨?_, fun hn => ⟨decode_seReg_of_ne x y hn, decode_sneReg_of_ne x y hn⟩,
    ⟨s.skipIf (s.getV x == s.getV y), rfl, State.skipIf_changes s _ [], hequal, hunequal⟩,
    ⟨s.skipIf (s.getV x != s.getV y), rfl, State.skipIf_changes s _ [], hdiffers,
      fun heq => hsame (not_not_intro heq)⟩⟩
  rintro rfl
  exact ⟨decode_encode (i := .seReg x y) rfl, decode_encode (i := .sneReg x y) rfl⟩

/-! ### The return stack -/

/-- The state after a push as entry `k`. -/
def State.pushed (k : Fin 16) (a : Word) : State := { s with stack := s.stack.set k.val a, sp := k.succ }

/-- The state after a pop that leaves `k` entries. -/
def State.popped (k : Fin 16) : State := { s with sp := k.castSucc }

theorem State.pushed_stack (k j : Fin 16) (a : Word) :
    (s.pushed k a).stack[j] = if k = j then a else s.stack[j] := by
  simp [State.pushed, Vector.getElem_set, Fin.ext_iff]

/-- Where `t` differs from `s` in the stack, SP, PC and `awaitingKey` at most, the entries and SP that keep their value
are not changed. -/
theorem State.stackOnly_changes (parts : List Part) (t : State)
    (ht : ∃ stack sp pc awaitingKey, t = { s with stack := stack, sp := sp, pc := pc, awaitingKey := awaitingKey })
    (hstack : ∀ k : Fin 16, .stackEntry k.val ∉ parts → t.stack[k] = s.stack[k])
    (hsp : .sp ∉ parts → t.sp = s.sp) : OnlyChanges parts s t := by
  obtain ⟨stack, sp, pc, awaitingKey, rfl⟩ := ht
  exact ⟨fun _ _ => rfl, fun _ => rfl, hstack, hsp, by simp [State.readByte]⟩

theorem State.pushed_changes (k : Fin 16) (a : Word) (n : Next) :
    OnlyChanges [.stackEntry k.val, .sp] s ((s.pushed k a).retire n) := by
  refine State.stackOnly_changes s _ _ ⟨_, _, _, _, rfl⟩ (fun j hj => ?_) (fun h => absurd (.tail _ (.head _)) h)
  have hkj : k ≠ j := by rintro rfl; exact hj (.head _)
  rw [State.retire_stack, State.pushed_stack, if_neg hkj]

theorem State.popped_changes (k : Fin 16) (n : Next) : OnlyChanges [.sp] s ((s.popped k).retire n) :=
  State.stackOnly_changes s _ _ ⟨_, _, _, _, rfl⟩ (fun _ _ => rfl) (fun h => absurd (.head _) h)

theorem exec_call_of_eq (nnn : Addr) {k : Fin 16} (h : s.sp.val = k.val) :
    exec (.call nnn) s = .next ((s.pushed k (s.pc + 2#16)).retire (.jump (addrOperand nnn))) := by
  obtain ⟨k, hk⟩ := k
  obtain rfl : s.sp.val = k := h
  exact execCall_of_lt s nnn hk

theorem exec_ret_of_succ {k : Fin 16} (h : s.sp.val = k.val + 1) :
    exec .ret s = .next ((s.popped k).retire (.jump s.stack[k])) := by
  obtain ⟨k, hk⟩ := k
  obtain rfl : s.sp.val - 1 = k := by simp [h]
  exact execRet_of_pos s (by omega)

/-- Settles O18: `exec_ret_of_succ`. -/
theorem retPopsTheReturnAddress : Obligations.RetPopsTheReturnAddress :=
  ⟨decode_encode (i := .ret) rfl, fun s k h =>
    ⟨_, exec_ret_of_succ s h, rfl, rfl, rfl, State.popped_changes s k _⟩⟩

/-- Settles O19: `exec_call_of_eq`. -/
theorem callPushesTheReturnAddress : Obligations.CallPushesTheReturnAddress := by
  intro nnn s k h
  have hentry : (s.pushed k (s.pc + 2#16)).stack[k] = s.pc + 2#16 := by rw [State.pushed_stack, if_pos rfl]
  exact ⟨decode_encode (i := .call nnn) rfl, _, exec_call_of_eq s nnn h, addrOperand_toNat nnn, hentry, rfl, rfl,
    State.pushed_changes s k _ _⟩

/-- Settles O20: at either limit the step takes the diagnostic and its recovery. -/
theorem stackLimitsAreReported : Obligations.StackLimitsAreReported :=
  ⟨fun s h => ⟨_, execRet_of_empty s h, rfl, rfl, State.recover_changes s _ _⟩,
    fun nnn s h => ⟨_, execCall_of_full s nnn h, rfl, rfl, State.recover_changes s _ _⟩⟩

/-- Settles O21: the return pops the entry the call pushed. -/
theorem returnUndoesItsCall : Obligations.ReturnUndoesItsCall := by
  intro nnn s hsp
  obtain ⟨k, hk⟩ : ∃ k : Fin 16, s.sp.val = k.val := ⟨⟨s.sp.val, hsp⟩, rfl⟩
  have hret := exec_ret_of_succ ((s.pushed k (s.pc + 2#16)).retire (.jump (addrOperand nnn))) (k := k) rfl
  refine ⟨_, _, exec_call_of_eq s nnn hk, hret, ?_, Fin.ext hk.symm, ?_⟩
  · rw [State.retire_pc, Next.pcFrom_jump, State.retire_stack, State.pushed_stack, if_pos rfl]
  · refine State.stackOnly_changes s _ _ ⟨_, _, _, _, rfl⟩ (fun j hj => ?_) (fun _ => Fin.ext hk.symm)
    have hkj : k ≠ j := by rintro rfl; exact hj (hk ▸ .head _)
    exact (State.pushed_stack s k j _).trans (if_neg hkj)

end Sys2Proof.Machine
end

section
/-! SUPPORT. The 8-bit results and flags of the ALU in numbers, and the instructions 7XNN, 8XY0 to 8XY7, 8XYE
(42_alu.md R142 to R151). -/

namespace Sys2Proof.Machine

variable (s : State)

/-! ### One result and no flag -/

/-- Settles O27: the sum of bytes is the sum modulo 256. -/
theorem addImmediateWraps : Obligations.AddImmediateWraps := by
  intro x kk s
  refine ⟨decode_encode (i := .addByte x kk) rfl, s.finishV x (s.getV x + kk), rfl, ?_, rfl,
    State.finishV_changes s x _⟩
  rw [State.getV_finishV_same, BitVec.toNat_add]

/-- Settles O28: each is a result in Vx. -/
theorem copyAndLogicWriteVx : Obligations.CopyAndLogicWriteVx := by
  intro x y s
  have result : ∀ r, (s.finishV x r).getV x = r ∧ (s.finishV x r).pc = s.pc + 2#16 ∧
      OnlyChanges [.reg x] s (s.finishV x r) :=
    fun r => ⟨State.getV_finishV_same s x r, State.finishV_pc s x r, State.finishV_changes s x r⟩
  exact ⟨⟨decode_encode (i := .ldReg x y) rfl, decode_encode (i := .orReg x y) rfl,
    decode_encode (i := .andReg x y) rfl, decode_encode (i := .xorReg x y) rfl⟩,
    ⟨_, rfl, result _⟩, ⟨_, rfl, result _⟩, ⟨_, rfl, result _⟩, ⟨_, rfl, result _⟩⟩

/-! ### A result with its flag -/

theorem flagByte_toNat (f : Bool) : (flagByte f).toNat = f.toNat := by cases f <;> rfl

theorem flagByte_decide_toNat (p : Prop) [Decidable p] : (flagByte (decide p)).toNat = if p then 1 else 0 := by
  by_cases h : p <;> simp [h, flagByte]

/-- The flag of a bit of a byte. -/
theorem flagByte_getLsbD_toNat (b : Byte) (k : Nat) : (flagByte (b.getLsbD k)).toNat = b.toNat / 2 ^ k % 2 := by
  rw [flagByte_toNat, BitVec.getLsbD, Nat.toNat_testBit]

/-- Everything an instruction with a flag leaves, its result and its flag given as numbers (R140). -/
theorem State.finishRF_spec (x : Nibble) {r : Byte} {f : Bool} {rn fn : Nat} (hr : r.toNat = rn)
    (hf : (flagByte f).toNat = fn) :
    ResultAndFlag s (s.finishRF x r f) x rn fn ∧ (s.finishRF x r f).pc = s.pc + 2#16 ∧
      OnlyChanges [.reg x, .reg 0xF#4] s (s.finishRF x r f) := by
  subst hr hf
  exact ⟨State.finishRF_result s x r f, (State.finishRF_ends s x r f).1, State.finishRF_changes s x r f⟩

/-- R148: the difference modulo 256. -/
theorem byte_sub_toNat (a b : Byte) : (a - b).toNat = (a.toNat + 256 - b.toNat) % 256 := by
  have := b.isLt
  rw [BitVec.toNat_sub]; omega

/-- Settles O29: the sum of bytes is the sum modulo 256, and `carryOut` its carry. -/
theorem addSetsTheCarry : Obligations.AddSetsTheCarry :=
  fun x y s => ⟨decode_encode (i := .addReg x y) rfl, _, rfl,
    State.finishRF_spec s x (BitVec.toNat_add _ _) (flagByte_decide_toNat _)⟩

/-- Settles O30: `byte_sub_toNat` with `noBorrow`, for either order of the operands. -/
theorem subtractionsSetNoBorrow : Obligations.SubtractionsSetNoBorrow :=
  fun x y s => ⟨decode_encode (i := .subReg x y) rfl, decode_encode (i := .subnReg x y) rfl,
    ⟨_, rfl, State.finishRF_spec s x (byte_sub_toNat _ _) (flagByte_decide_toNat _)⟩,
    ⟨_, rfl, State.finishRF_spec s x (byte_sub_toNat _ _) (flagByte_decide_toNat _)⟩⟩

/-- R149: a right shift halves the byte, and its flag is the byte's parity. -/
theorem byte_shiftRight_toNat (b : Byte) :
    (b >>> 1).toNat = b.toNat / 2 ∧ (flagByte (bitOutRight b)).toNat = b.toNat % 2 := by
  refine ⟨by rw [BitVec.toNat_ushiftRight, Nat.shiftRight_eq_div_pow], ?_⟩
  rw [bitOutRight, flagByte_getLsbD_toNat, Nat.pow_zero, Nat.div_one]

/-- R151: a left shift doubles the byte modulo 256, and its flag is the byte's bit of weight 128. -/
theorem byte_shiftLeft_toNat (b : Byte) :
    (b <<< 1).toNat = b.toNat * 2 % 256 ∧ (flagByte (bitOutLeft b)).toNat = b.toNat / 128 := by
  have := b.isLt
  refine ⟨by rw [BitVec.toNat_shiftLeft, Nat.shiftLeft_eq], ?_⟩
  rw [bitOutLeft, flagByte_getLsbD_toNat]; omega

/-- Settles O31: both shift Vx alone, whatever Vy is. -/
theorem shiftsPutTheBitOutInVF : Obligations.ShiftsPutTheBitOutInVF := by
  intro x y s
  obtain ⟨hright, hbit0⟩ := byte_shiftRight_toNat (s.getV x)
  obtain ⟨hleft, hbit7⟩ := byte_shiftLeft_toNat (s.getV x)
  exact ⟨decode_encode (i := .shr x y) rfl, decode_encode (i := .shl x y) rfl,
    ⟨_, rfl, State.finishRF_spec s x hright hbit0⟩, ⟨_, rfl, State.finishRF_spec s x hleft hbit7⟩⟩

end Sys2Proof.Machine
end

section
/-! SUPPORT. The range check of a data access (43_index_memory.md R166) in the words of R56, and the index and memory
instructions (R160 to R165). -/

namespace Sys2Proof.Machine

variable (s : State)

/-! ### The index register -/

@[simp] theorem State.finishI_i (w : Word) : (s.finishI w).i = w := rfl

/-- Settles O32: each is a result in I. -/
theorem indexIsSetAndAdded : Obligations.IndexIsSetAndAdded := by
  refine ⟨fun nnn s => ⟨decode_encode (i := .ldI nnn) rfl, s.finishI (addrOperand nnn), rfl, addrOperand_toNat nnn, rfl,
      State.finishI_changes s _⟩,
    fun x s => ⟨decode_encode (i := .addI x) rfl, s.finishI (s.i + byteOperand (s.getV x)), rfl, ?_, rfl,
      State.finishI_changes s _⟩⟩
  rw [State.finishI_i, BitVec.toNat_add, byteOperand_toNat]

theorem FontBase.addr_le (b : FontBase) : b.addr ≤ 0x50 := by cases b <;> decide

/-- R37, R162: a glyph address in numbers, for the low nibble of a byte. -/
theorem glyphAddr_lowNibble_toNat (p : Params) (b : Byte) :
    (glyphAddr p (lowNibble b)).toNat = p.fontBase.addr + 5 * (b.toNat % 16) := by
  have hbase := FontBase.addr_le p.fontBase
  simp only [glyphAddr, lowNibble, BitVec.toNat_ofNat, BitVec.toNat_setWidth]
  omega

/-- Settles O33: the address is `glyphAddr_lowNibble_toNat`, and reset memory reads as its background there. -/
theorem glyphAddressFindsTheGlyph : Obligations.GlyphAddressFindsTheGlyph := by
  intro x s
  have haddr : (s.finishI (glyphAddr s.params (lowNibble (s.getV x)))).i.toNat =
      s.params.fontBase.addr + 5 * ((s.getV x).toNat % 16) := glyphAddr_lowNibble_toNat s.params (s.getV x)
  refine ⟨decode_encode (i := .ldF x) rfl, _, rfl, haddr, rfl, State.finishI_changes s _, fun r => ?_⟩
  rw [State.readByte_resetOp, haddr, Nat.add_assoc]
  exact Memory.background_font s.params ⟨5 * ((s.getV x).toNat % 16) + r.val, by omega⟩

/-! ### The range check -/

theorem State.inRange_iff_mayAccess (c : Nat) : s.inRange c = true ↔ MayAccess s c := State.inRange_iff s c

theorem State.checkData_of_mayAccess {c : Nat} (h : MayAccess s c) (body : State) :
    s.checkData c body = body.retire .advance := by
  rw [State.checkData_eq, if_pos ((State.inRange_iff_mayAccess s c).2 h)]

theorem State.checkData_of_not_mayAccess {c : Nat} (h : ¬MayAccess s c) (body : State) :
    s.checkData c body = s.recover (.memoryAccessOutOfBounds s.pc (max s.i.toNat 0x1000)) .advance := by
  rw [State.checkData_eq, if_neg (mt (State.inRange_iff_mayAccess s c).1 h), State.recover_eq]

/-- Every instruction that makes the check reports its range where the access may not be made. -/
theorem reportsOutOfRange_of_check {i : Instr} {c : Nat} {body : State} (hexec : exec i s = .next (s.checkData c body))
    (h : ¬MayAccess s c) : ReportsOutOfRange i s := by
  rw [State.checkData_of_not_mayAccess s h] at hexec
  exact ⟨_, hexec, rfl, rfl, State.recover_changes s _ _⟩

/-- Every instruction that makes the check ends its effect with PC + 2 where the access may be made. -/
theorem exec_of_check {i : Instr} {c : Nat} {body : State} (hexec : exec i s = .next (s.checkData c body))
    (h : MayAccess s c) : exec i s = .next (body.retire .advance) := by
  rw [hexec, State.checkData_of_mayAccess s h]

/-- Settles O37: under `skip` the last address, and so each, is in memory. -/
theorem dataAddressesAreIPlusOffset : Obligations.DataAddressesAreIPlusOffset := by
  refine fun s c k hmay hk => ⟨fun hskip => State.dataAddr_toNat s ?_, fun _ => State.dataAddr_toNat_mod s k⟩
  rcases hmay with hwrap | hzero | hlast
  · rw [hskip] at hwrap; cases hwrap
  · omega
  · rw [State.ea]; omega

/-! ### The instructions that make it -/

theorem exec_ldB (x : Nibble) : exec (.ldB x) s = .next (s.checkData 3 (s.storeDigits (s.getV x))) := rfl

theorem exec_storeRegs (x : Nibble) :
    exec (.storeRegs x) s = .next (s.checkData (x.toNat + 1) (s.storeBlock (x.toNat + 1))) := rfl

theorem exec_loadRegs (x : Nibble) :
    exec (.loadRegs x) s = .next (s.checkData (x.toNat + 1) (s.loadBlock (x.toNat + 1))) := rfl

theorem State.storeBlock_pc (c : Nat) : (s.storeBlock c).pc = s.pc := by
  obtain ⟨m, hm⟩ := State.storeBlock_only s c
  rw [hm]

theorem State.loadBlock_pc (c : Nat) : (s.loadBlock c).pc = s.pc := by
  obtain ⟨v, hv⟩ := State.loadBlock_only s c
  rw [hv]

/-- Settles O34: the digits stand where `State.storeDigits_at` says. -/
theorem bcdStoresThreeDigits : Obligations.BcdStoresThreeDigits := by
  refine fun x s => ⟨decode_encode (i := .ldB x) rfl, fun hmay => ?_, reportsOutOfRange_of_check s (exec_ldB s x)⟩
  have hundreds := State.storeDigits_at s (s.getV x) (k := 0) (by decide)
  have tens := State.storeDigits_at s (s.getV x) (k := 1) (by decide)
  have units := State.storeDigits_at s (s.getV x) (k := 2) (by decide)
  refine ⟨_, exec_of_check s (exec_ldB s x) hmay, hundreds.trans ?_, tens, units.trans ?_, rfl,
    State.storeDigits_changes s _ _⟩
  · have := (s.getV x).isLt
    omega
  · omega

/-- Settles O35: the registers stand where `State.storeBlock_at` says. -/
theorem blockStoreCopiesRegisters : Obligations.BlockStoreCopiesRegisters := by
  refine fun x s => ⟨decode_encode (i := .storeRegs x) rfl, fun hmay => ?_,
    reportsOutOfRange_of_check s (exec_storeRegs s x)⟩
  refine ⟨_, exec_of_check s (exec_storeRegs s x) hmay, fun y hy => ?_, ?_, State.storeBlock_changes s _ _⟩
  · rw [State.readByte_retire, State.storeBlock_at s (Nat.succ_le_of_lt x.isLt) (Nat.lt_succ_of_le hy),
      BitVec.ofNat_toNat, BitVec.setWidth_eq]
  · rw [State.retire_pc, State.storeBlock_pc, Next.pcFrom_advance]

/-- Settles O36: the bytes stand where `State.getV_loadBlock` says. -/
theorem blockLoadFillsRegisters : Obligations.BlockLoadFillsRegisters := by
  refine fun x s => ⟨decode_encode (i := .loadRegs x) rfl, fun hmay => ?_,
    reportsOutOfRange_of_check s (exec_loadRegs s x)⟩
  have hc : x.toNat + 1 ≤ 16 := Nat.succ_le_of_lt x.isLt
  refine ⟨_, exec_of_check s (exec_loadRegs s x) hmay, fun y hy => ?_, ?_, State.loadBlock_changes s hc _⟩
  · rw [State.getV_retire, State.getV_loadBlock s hc, if_pos (Nat.lt_succ_of_le hy)]
  · rw [State.retire_pc, State.loadBlock_pc, Next.pcFrom_advance]

end Sys2Proof.Machine
end

section
/-! SUPPORT. The host's operations: the timer calls (60_exceptions.md R220), reset (10_state.md R39), the load of a
program that fits (70_reset_and_hazards.md R252), and the core before its first reset (R40). -/

namespace Sys2Proof.Machine

variable (s : State)

/-! ### Timer calls -/

/-- Settles O42: `State.tickTimers_eq`, field by field. -/
theorem timersCountElapsedPeriods : Obligations.TimersCountElapsedPeriods := by
  intro s ms
  rw [State.tickTimers_eq]
  exact ⟨toNat_ofNat_toNat_sub s.dt _, toNat_ofNat_toNat_sub s.st _, rfl, rfl⟩

theorem State.tickTimers_zero : s.tickTimers 0 = s := by
  obtain ⟨hdiv, hmod⟩ : s.tickAcc.val / 16 = 0 ∧ s.tickAcc.val % 16 = s.tickAcc.val := by omega
  simp [State.tickTimers_eq, hdiv, hmod]

/-- Two calls are one call for both spans, the accumulator carrying the first call's remainder (R220). -/
theorem State.tickTimers_tickTimers (a b : Nat) : (s.tickTimers a).tickTimers b = s.tickTimers (a + b) := by
  have hticks : (s.tickAcc.val + a) / 16 + ((s.tickAcc.val + a) % 16 + b) / 16 = (s.tickAcc.val + (a + b)) / 16 := by
    omega
  have hacc : ((s.tickAcc.val + a) % 16 + b) % 16 = (s.tickAcc.val + (a + b)) % 16 := by omega
  simp only [State.tickTimers_eq, toNat_ofNat_toNat_sub, Nat.sub_sub, hticks, hacc]

/-- Settles O43, by induction on the list of spans. -/
theorem tickSpacingDoesNotMatter : Obligations.TickSpacingDoesNotMatter := by
  intro s spans
  induction spans generalizing s with
  | nil => exact (State.tickTimers_zero s).symm
  | cons ms rest ih => rw [List.foldl_cons, ih, State.tickTimers_tickTimers, List.sum_cons]

/-! ### Reset -/

theorem State.resetOp_fb : s.resetOp.fb = Framebuffer.blank := rfl

theorem State.readCell_resetOp (j : Nat) : s.resetOp.readCell j = false := by
  rw [State.readCell, State.resetOp_fb, Framebuffer.cell_blank]

theorem State.getV_resetOp (x : Nibble) : s.resetOp.getV x = 0#8 := Vector.getElem_replicate ..

theorem State.stack_resetOp (k : Fin 16) : s.resetOp.stack[k] = 0#16 := Vector.getElem_replicate ..

theorem State.keyDown_resetOp (k : Nibble) : s.resetOp.keyDown k = false := Vector.getElem_replicate ..

/-- Settles O51: memory reads as its background, and every other piece of state is a field of `State.reset`. -/
theorem resetLeavesTheListedValues : Obligations.ResetLeavesTheListedValues := by
  intro s
  exact ⟨State.getV_resetOp s, rfl, rfl, State.stack_resetOp s, rfl, rfl, rfl,
    fun j => (State.readByte_resetOp s _).trans (Memory.background_font s.params j),
    fun a ha => (State.readByte_resetOp s a).trans (Memory.background_zero s.params a ha),
    fun j _ => State.readCell_resetOp s j, rfl, State.keyDown_resetOp s, rfl, rfl, rfl, rfl⟩

/-- Settles O55: every operation but reset has its own refusal in `Chip.operate`. -/
theorem nothingRunsBeforeReset : Obligations.NothingRunsBeforeReset := by
  intro p op
  refine ⟨fun hop => ?_, rfl⟩
  cases op with
  | reset => exact absurd rfl hop
  | loadProgram | step | tickTimers | writeKey | ackRedraw => rfl

/-! ### The load of a program that fits -/

/-- Everything the load of a program that fits does (R252): over a reset core, memory in its canonical form with the
bytes from 0x200 up, and their number. -/
theorem State.loadProgram_of_le {bytes : List Byte} (h : bytes.length ≤ 3584) :
    ∃ m, s.loadProgram bytes =
        { s.resetOp with mem := m, loadedSize := some ⟨bytes.length, Nat.lt_succ_of_le h⟩ } ∧
      Memory.wf s.params m ∧
      ∀ a : Addr, Memory.read s.params m a =
        if a.toNat < 0x200 then s.resetOp.readByte a else (bytes[a.toNat - 0x200]?).getD (s.resetOp.readByte a) := by
  obtain ⟨m, hm⟩ := State.copyBytes_only s.resetOp 0x200 bytes
  have hwf := State.copyBytes_wf s.resetOp 0x200 bytes (Memory.wf_nil _)
  have hread := State.readByte_copyBytes s.resetOp 0x200 bytes (by omega)
  rw [hm] at hwf hread
  refine ⟨m, ?_, hwf, hread⟩
  rw [State.loadProgram, dif_pos h, hm]

theorem State.operate_loadProgram_of_le {bytes : List Byte} (h : bytes.length ≤ 3584) :
    s.operate (.loadProgram bytes) = .next (s.loadProgram bytes, .loaded) := by
  rw [State.operate_loadProgram, if_pos h]

/-- A byte of a loaded program is read at its place (R252). -/
theorem State.readByte_loadProgram {bytes : List Byte} (h : bytes.length ≤ 3584) {j : Nat} (hj : j < bytes.length) :
    (s.loadProgram bytes).readByte (BitVec.ofNat 12 (0x200 + j)) = bytes[j] := by
  obtain ⟨m, hload, -, hread⟩ := State.loadProgram_of_le s h
  have haddr : (BitVec.ofNat 12 (0x200 + j)).toNat = 0x200 + j := by rw [BitVec.toNat_ofNat]; omega
  rw [hload]
  refine (hread _).trans ?_
  rw [haddr, if_neg (by omega), Nat.add_sub_cancel_left, List.getElem?_eq_getElem hj, Option.getD_some]

/-- A byte beside a loaded program is the reset core's (R252). -/
theorem State.readByte_loadProgram_other {bytes : List Byte} (h : bytes.length ≤ 3584) {a : Addr}
    (ha : a.toNat < 0x200 ∨ 0x200 + bytes.length ≤ a.toNat) :
    (s.loadProgram bytes).readByte a = s.resetOp.readByte a := by
  obtain ⟨m, hload, -, hread⟩ := State.loadProgram_of_le s h
  rw [hload]
  refine (hread a).trans ?_
  split
  · rfl
  · rw [List.getElem?_eq_none (by omega), Option.getD_none]

/-- Settles O52: `State.loadProgram_of_le`. -/
theorem loadProgramCopiesOverAReset : Obligations.LoadProgramCopiesOverAReset := by
  intro s bytes h
  refine ⟨_, State.operate_loadProgram_of_le s h, fun _ => State.readByte_loadProgram s h,
    fun _ => State.readByte_loadProgram_other s h, ?_⟩
  obtain ⟨m, hload, -⟩ := State.loadProgram_of_le s h
  rw [hload]
  exact ⟨rfl, rfl⟩

end Sys2Proof.Machine
end

section
/-! SUPPORT. A store is seen by the next fetch (20_memory.md R61, 70_reset_and_hazards.md R255). -/

namespace Sys2Proof.Machine

variable (s : State)

theorem addr_eq_ofNat {a : Addr} {n : Nat} (h : a.toNat = n) : a = BitVec.ofNat 12 n := by
  rw [← h, BitVec.ofNat_toNat, BitVec.setWidth_eq]

/-- Where `c` stores at I left their values and every other byte is kept, the next step fetches them. -/
theorem fetchesStored_of_stores {t : State} {c : Nat} {value : Nat → Nat} (hpc : s.pc.toNat ≤ 0xFFC)
    (htpc : t.pc = s.pc + 2#16) (hstored : ∀ k < c, (t.readByte (s.dataAddr k)).toNat = value k)
    (hkept : ∀ a, (∀ k < c, s.dataAddr k ≠ a) → t.readByte a = s.readByte a) : FetchesStored s t c value := by
  have hnext : t.pc.toNat = s.pc.toNat + 2 := by rw [htpc, BitVec.toNat_add, BitVec.toNat_ofNat]; omega
  have kept_at : ∀ n < 4096, (∀ k < c, (s.dataAddr k).toNat ≠ n) →
      t.readByte (BitVec.ofNat 12 n) = s.readByte (BitVec.ofNat 12 n) := by
    refine fun n hn hne => hkept _ fun k hk e => hne k hk ?_
    rw [e, BitVec.toNat_ofNat, Nat.mod_eq_of_lt hn]
  have stored_at : ∀ n, ∀ k < c, (s.dataAddr k).toNat = n → (t.readByte (BitVec.ofNat 12 n)).toNat = value k :=
    fun n k hk e => addr_eq_ofNat e ▸ hstored k hk
  rw [FetchesStored, State.firstByte_fetchWord, State.secondByte_fetchWord, hnext]
  exact ⟨stored_at _, stored_at _, kept_at _ (by omega), kept_at _ (by omega)⟩

/-- Settles O38: the stores of FX55 and FX33 by `fetchesStored_of_stores`, a loaded program by its first two bytes. -/
theorem storeIsSeenByTheNextFetch : Obligations.StoreIsSeenByTheNextFetch := by
  refine ⟨fun x s hpc hmay => ?_, fun x s hpc hmay => ?_, fun s first second rest hlen => ?_⟩
  · have hend : ((s.storeBlock (x.toNat + 1)).retire .advance).pc = s.pc + 2#16 := by
      rw [State.retire_pc, State.storeBlock_pc, Next.pcFrom_advance]
    refine ⟨_, exec_of_check s (exec_storeRegs s x) hmay, hend,
      fetchesStored_of_stores s hpc hend (fun k hk => ?_) (State.storeBlock_other s (x.toNat + 1))⟩
    exact congrArg BitVec.toNat (State.storeBlock_at s (Nat.succ_le_of_lt x.isLt) hk)
  · exact ⟨_, exec_of_check s (exec_ldB s x) hmay, rfl,
      fetchesStored_of_stores s hpc rfl (fun k hk => State.storeDigits_at s (s.getV x) hk)
        (State.storeDigits_other s (s.getV x))⟩
  · have hfits : (first :: second :: rest).length ≤ 3584 := hlen
    have hfirst := State.readByte_loadProgram s hfits (j := 0) (Nat.succ_pos _)
    have hsecond := State.readByte_loadProgram s hfits (j := 1) (by simp)
    have hstart : (s.loadProgram (first :: second :: rest)).pc = 0x200#16 := by
      obtain ⟨m, hload, -⟩ := State.loadProgram_of_le s hfits
      rw [hload]; rfl
    refine ⟨_, State.operate_loadProgram_of_le s hfits, hstart, ?_⟩
    rw [State.fetchWord, hstart]
    exact congrArg₂ wordOfBytes hfirst hsecond

end Sys2Proof.Machine
end

section
/-! SUPPORT. Random byte and timer access (44_timers_random.md), and the keyboard instructions (45_display_keys.md R192
to R194). -/

namespace Sys2Proof.Machine

variable (s : State)

theorem State.getV_randomResult_same (x : Nibble) (kk drawn : Byte) :
    (s.randomResult x kk drawn).getV x = drawn &&& kk := by
  simp [State.randomResult]

/-- Settles O39: what `State.randomResult` leaves, for the drawn byte and for every other. -/
theorem randomByteIsMasked : Obligations.RandomByteIsMasked :=
  fun x kk s => ⟨decode_encode (i := .rnd x kk) rfl,
    ⟨s.randomResult x kk (Config.randomByte s.draws), rfl, State.getV_randomResult_same s x kk _, rfl, rfl,
      State.randomResult_changes s x kk _⟩, rfl,
    fun b => ⟨State.getV_randomResult_same s x kk b, State.randomResult_changes s x kk b⟩⟩

theorem State.setDt_changes (b : Byte) (n : Next) : OnlyChanges [.dt] s ((s.setDt b).retire n) := by
  simp [OnlyChanges]

theorem State.setSt_changes (b : Byte) (n : Next) : OnlyChanges [.st] s ((s.setSt b).retire n) := by
  simp [OnlyChanges]

/-- Settles O40: FX07 is a result in Vx, FX15 and FX18 write their timer alone. -/
theorem timersAreReadAndWritten : Obligations.TimersAreReadAndWritten :=
  fun x s => ⟨⟨decode_encode (i := .ldVxDt x) rfl, decode_encode (i := .ldDtVx x) rfl,
      decode_encode (i := .ldStVx x) rfl⟩,
    ⟨s.finishV x s.dt, rfl, State.getV_finishV_same s x _, rfl, State.finishV_changes s x _⟩,
    ⟨(s.setDt (s.getV x)).retire .advance, rfl, rfl, rfl, State.setDt_changes s _ _⟩,
    ⟨(s.setSt (s.getV x)).retire .advance, rfl, rfl, rfl, State.setSt_changes s _ _⟩⟩

theorem exec_skp (x : Nibble) : exec (.skp x) s = .next (s.skipIf (s.keyDown (lowNibble (s.getV x)))) := rfl

/-- EXA1 skips where EX9E does not. -/
theorem exec_sknp (x : Nibble) : exec (.sknp x) s = .next (s.skipIf (!s.keyDown (lowNibble (s.getV x)))) := by
  rw [exec, execSknp]
  cases s.keyDown (lowNibble (s.getV x)) <;> rfl

/-- Settles O48: both are skips, on the key of the low nibble and on its negation. -/
theorem keySkipsReadTheKey : Obligations.KeySkipsReadTheKey := by
  intro x k s hk
  obtain rfl : k = lowNibble (s.getV x) := BitVec.eq_of_toNat_eq (by rw [hk, lowNibble, BitVec.toNat_setWidth])
  obtain ⟨hdown, hnotDown⟩ := State.skipIf_pc_cases s (Iff.refl (s.keyDown (lowNibble (s.getV x)) = true))
  obtain ⟨hup, hnotUp⟩ := State.skipIf_pc_cases s (Iff.of_eq (Bool.not_eq_true' (s.keyDown (lowNibble (s.getV x)))))
  exact ⟨⟨decode_encode (i := .skp x) rfl, decode_encode (i := .sknp x) rfl⟩,
    ⟨_, exec_skp s x, State.skipIf_changes s _ [], hdown, fun h => hnotDown (by simp [h])⟩,
    ⟨_, exec_sknp s x, State.skipIf_changes s _ [], hup, fun h => hnotUp (by simp [h])⟩⟩

theorem exec_ldVxK_of_some (x : Nibble) {k : Nibble} (h : s.lowestKeyDown = some k) :
    exec (.ldVxK x) s = .next (s.finishV x (k.setWidth 8)) := by
  rw [exec, execLdVxK, h]; rfl

theorem exec_ldVxK_of_none (x : Nibble) (h : s.lowestKeyDown = none) :
    exec (.ldVxK x) s = .next (s.retire .suspend) := by
  rw [exec, execLdVxK, h]

/-- Settles O49: the scan finds the lowest key down, and its index is the result in Vx. -/
theorem keyWaitTakesTheLowestKey : Obligations.KeyWaitTakesTheLowestKey := by
  intro x k s hdown hlowest
  have hscan := exec_ldVxK_of_some s x (State.lowestKeyDown_some s k hdown hlowest)
  refine ⟨decode_encode (i := .ldVxK x) rfl, _, hscan, ?_, rfl, State.finishV_changes s x _⟩
  have := k.isLt
  rw [State.getV_finishV_same, BitVec.toNat_setWidth]; omega

/-- Settles O50: the scan finds no key, and the step suspends. -/
theorem keyWaitSuspendsWithNoKey : Obligations.KeyWaitSuspendsWithNoKey :=
  fun x s hup => exec_ldVxK_of_none s x ((State.lowestKeyDown_none s).2 hup)

end Sys2Proof.Machine
end

section
/-! SUPPORT. A draw as a whole (45_display_keys.md R191): its collision as a covered lit cell, and drawing twice. -/

namespace Sys2Proof.Machine

variable (s : State)

theorem exec_drw (x y n : Nibble) : exec (.drw x y n) s =
    .next (s.checkData n.toNat (s.drawn (s.drawRows (s.getV x).toNat (s.getV y).toNat n.toNat))) := rfl

/-- Settles O46: the check comes before any write. -/
theorem drawBeyondMemoryIsReported : Obligations.DrawBeyondMemoryIsReported :=
  fun x y n s => reportsOutOfRange_of_check s (exec_drw s x y n)

theorem State.drawn_fb (cv : Canvas) : (s.drawn cv).fb = cv.fb := rfl

theorem State.getV_drawn_VF (cv : Canvas) : (s.drawn cv).getV 0xF#4 = flagByte cv.collision := by
  simp [State.drawn]

theorem State.getV_drawn_of_ne (cv : Canvas) {x : Nibble} (h : x ≠ 0xF#4) : (s.drawn cv).getV x = s.getV x := by
  simp [State.drawn, h.symm]

theorem flagByte_eq_one_iff (f : Bool) : flagByte f = 1#8 ↔ f = true := by cases f <;> decide

/-- A sprite is no taller than the screen. -/
theorem nibble_toNat_le (n : Nibble) : n.toNat ≤ 32 := by omega

/-- The cells after a draw, by column and row (R191). -/
theorem State.drawRows_pixel_iff (cx cy : Nat) {r px py : Nat} (hr : r ≤ 32) (hx : px < 64) (hy : py < 32) :
    Framebuffer.pixel (s.drawRows cx cy r).fb px py = true ↔
      ¬(Framebuffer.pixel s.fb px py = true ↔ SpriteCovers s cx cy r px py) := by
  have h := State.drawRows_pixel s cx cy px py hr
  rwa [Nat.mod_eq_of_lt hx, Nat.mod_eq_of_lt hy] at h

/-- The collision of a draw is a lit cell under a set bit (R191). -/
theorem State.drawRows_collision_iff (cx cy : Nat) {r : Nat} (hr : r ≤ 32) :
    (s.drawRows cx cy r).collision = true ↔
      ∃ px < 64, ∃ py < 32, s.readCell (py * 64 + px) = true ∧ SpriteCovers s cx cy r px py := by
  rw [State.drawRows_collision s cx cy hr]
  constructor
  · rintro ⟨k, hk, c, hc, hbit, hlit⟩
    have hx : (cx + c) % 64 < 64 := Nat.mod_lt _ (by decide)
    refine ⟨_, hx, (cy + k) % 32, Nat.mod_lt _ (by decide), ?_, k, hk, c, hc, hbit, rfl, rfl⟩
    rwa [State.readCell_index s hx, Framebuffer.pixel_mod]
  · rintro ⟨px, hx, py, -, hlit, k, hk, c, hc, hbit, rfl, rfl⟩
    rw [State.readCell_index s hx, Framebuffer.pixel_mod] at hlit
    exact ⟨k, hk, c, hc, hbit, hlit⟩

/-- Settles O45: the cells by `State.drawRows_pixel_iff`, VF by `State.drawRows_collision_iff`. -/
theorem drawXorsTheCoveredCells : Obligations.DrawXorsTheCoveredCells := by
  refine fun x y n s => ⟨decode_encode (i := .drw x y n) rfl, fun hmay => ?_⟩
  have hcollision := State.drawRows_collision_iff s (s.getV x).toNat (s.getV y).toNat (nibble_toNat_le n)
  refine ⟨_, exec_of_check s (exec_drw s x y n) hmay, fun px hx py hy => ⟨?_, State.readCell_index _ hx⟩,
    fun hlit => ?_, fun hdark => ?_, rfl, rfl, State.drawn_changes s _ _⟩
  · rw [State.readCell_index _ hx, State.readCell_index _ hx]
    exact State.drawRows_pixel_iff s _ _ (nibble_toNat_le n) hx hy
  · rw [State.getV_retire, State.getV_drawn_VF, hcollision.2 hlit]; rfl
  · rw [State.getV_retire, State.getV_drawn_VF, Bool.eq_false_iff.2 (mt hcollision.1 hdark)]; rfl

/-- A byte is not 0 exactly if it has a set bit, counted from bit 7 as the columns of a sprite row are. -/
theorem byte_ne_zero_iff (b : Byte) : b ≠ 0#8 ↔ ∃ c < 8, b.getLsbD (7 - c) = true := by
  constructor
  · intro hne
    by_contra hno
    refine hne (BitVec.eq_of_getLsbD_eq fun k hk => ?_)
    have hbit : ¬b.getLsbD (7 - (7 - k)) = true := fun h => hno ⟨7 - k, by omega, h⟩
    rw [show 7 - (7 - k) = k by omega] at hbit
    simpa using hbit
  · rintro ⟨c, -, hbit⟩ rfl
    simp at hbit

/-- Where every cell the host reads is 0, so is every cell at a column and row. -/
theorem State.pixel_of_readCell (h : ∀ j < 2048, s.readCell j = false) (px py : Nat) :
    Framebuffer.pixel s.fb px py = false := by
  have hx : px % 64 < 64 := Nat.mod_lt _ (by decide)
  rw [← Framebuffer.pixel_mod, ← State.readCell_index s hx]
  exact h _ (by omega)

/-- Two draws of one sprite, the second on the framebuffer of the first, restore it (L1.3). -/
theorem drawRows_twice_fb {t : State} {cx cy r : Nat} (hr : r ≤ 32) (hfb : t.fb = (s.drawRows cx cy r).fb)
    (hsprite : ∀ px py, SpriteCovers t cx cy r px py ↔ SpriteCovers s cx cy r px py) :
    (t.drawRows cx cy r).fb = s.fb := by
  refine Framebuffer.ext_pixel fun px hx py hy => ?_
  rw [Bool.eq_iff_iff, State.drawRows_pixel_iff t cx cy hr hx hy, hfb, State.drawRows_pixel_iff s cx cy hr hx hy,
    hsprite]
  by_cases hcovered : SpriteCovers s cx cy r px py <;> simp [hcovered]

/-- The second draw of a sprite over a blank framebuffer collides exactly if the sprite has a set bit (L1.3). -/
theorem drawRows_twice_collision {t : State} {cx cy r : Nat} (hr : r ≤ 32) (hfb : t.fb = (s.drawRows cx cy r).fb)
    (hbyte : ∀ k, t.readByte (t.dataAddr k) = s.readByte (s.dataAddr k))
    (hblank : ∀ px py, Framebuffer.pixel s.fb px py = false) :
    (t.drawRows cx cy r).collision = true ↔ ∃ k < r, s.readByte (s.dataAddr k) ≠ 0#8 := by
  have lit_of_bit : ∀ k < r, ∀ c < 8, (s.readByte (s.dataAddr k)).getLsbD (7 - c) = true →
      Framebuffer.pixel (s.drawRows cx cy r).fb (cx + c) (cy + k) = true := by
    intro k hk c hc hbit
    have hcovers : SpriteCovers s cx cy r ((cx + c) % 64) ((cy + k) % 32) := ⟨k, hk, c, hc, hbit, rfl, rfl⟩
    rw [State.drawRows_pixel s cx cy _ _ hr, hblank]
    simp [hcovers]
  rw [State.drawRows_collision t cx cy hr]
  simp only [hbyte, hfb, byte_ne_zero_iff]
  refine exists_congr fun k => and_congr_right fun hk => exists_congr fun c => and_congr_right fun hc => ?_
  exact and_iff_left_of_imp (lit_of_bit k hk c hc)

/-- Settles O47: VF is not a coordinate, so the second draw is of the same sprite at the same place. -/
theorem drawingTwiceErases : Obligations.DrawingTwiceErases := by
  intro x y n s hx hy hmay
  have hn := nibble_toNat_le n
  have hfirst := exec_of_check s (exec_drw s x y n) hmay
  generalize ht : (s.drawn (s.drawRows (s.getV x).toNat (s.getV y).toNat n.toNat)).retire .advance = t at hfirst
  have hsecond := exec_of_check t (exec_drw t x y n) (by rw [← ht]; exact hmay)
  have hVx : t.getV x = s.getV x := by rw [← ht, State.getV_retire, State.getV_drawn_of_ne s _ hx]
  have hVy : t.getV y = s.getV y := by rw [← ht, State.getV_retire, State.getV_drawn_of_ne s _ hy]
  have hfb : t.fb = (s.drawRows (s.getV x).toNat (s.getV y).toNat n.toNat).fb := by rw [← ht]; rfl
  have hbyte : ∀ k, t.readByte (t.dataAddr k) = s.readByte (s.dataAddr k) := fun k => by rw [← ht]; rfl
  rw [hVx, hVy] at hsecond
  refine ⟨t, _, hfirst, hsecond, drawRows_twice_fb s hn hfb fun px py => ?_, fun hblank => ?_⟩
  · simp only [SpriteCovers, hbyte]
  · rw [State.getV_retire, State.getV_drawn_VF, flagByte_eq_one_iff]
    exact drawRows_twice_collision s hn hfb hbyte (State.pixel_of_readCell s hblank)

end Sys2Proof.Machine
end

section
/-! SUPPORT. Everything an instruction can do, said once (`Effect`, `exec_effect`): what it may write, where PC may go,
when it suspends, and which diagnostic it may take. -/

namespace Sys2Proof.Machine

/-- The diagnostics an instruction may take, each with its condition (60_exceptions.md R211, R214). -/
inductive Raises (s : State) : Instr → Diagnostic → Prop
  | underflow (h : s.sp.val = 0) : Raises s .ret (.stackUnderflow s.pc)
  | overflow (nnn : Addr) (h : s.sp.val = 16) : Raises s (.call nnn) (.stackOverflow s.pc)
  | outOfRange {i : Instr}
      (hi : ∃ x, i = .ldB x ∨ i = .storeRegs x ∨ i = .loadRegs x ∨ ∃ y n, i = .drw x y n)
      (h : s.params.dataOob = .skip) : Raises s i (.memoryAccessOutOfBounds s.pc (max s.i.toNat 0x1000))

/-- What holds of the state `body` that an instruction `i` makes of a state `s`, before its step ends by the move `n` of
PC. -/
structure Effect (i : Instr) (s body : State) (n : Next) : Prop where
  /-- Nothing is written but what the rule of the instruction names (10_state.md R41). -/
  changes : OnlyChanges (writesOf i s) s (body.retire n)
  wf : Memory.wf s.params s.mem → Memory.wf body.params body.mem
  pc : body.pc = s.pc
  /-- Only a call writes a stack entry, and it writes PC + 2 (R124). -/
  stack : ∀ k : Fin 16, body.stack[k] = s.stack[k] ∨ body.stack[k] = s.pc + 2#16
  /-- A target is at most 0xFFF + 0xFF (R129), or a stack entry (R122). -/
  target : ∀ a, n = .jump a → a.toNat ≤ 0x10FE ∨ ∃ k : Fin 16, a = s.stack[k]
  /-- Only FX0A suspends, with no key down (R194). -/
  suspends : n = .suspend → (∃ x, i = .ldVxK x) ∧ ∀ k, s.keyDown k = false
  log : body.diags = s.diags ∨ ∃ d, Raises s i d ∧ body.diags = s.diags ++ [d]

variable {i : Instr} {s body : State} {n : Next}

/-- `t` has the memory, PC, stack and log of `s`: what the rest of `Effect` speaks of. -/
def KeepsControl (s t : State) : Prop :=
  t.params = s.params ∧ t.mem = s.mem ∧ t.pc = s.pc ∧ t.stack = s.stack ∧ t.diags = s.diags

/-- A move of PC that does not suspend and jumps no further than an offset jump can. -/
def Proceeds (n : Next) : Prop := n ≠ .suspend ∧ ∀ a, n = .jump a → a.toNat ≤ 0x10FE

theorem proceeds_advance : Proceeds .advance := by simp [Proceeds]

theorem proceeds_skip_or_advance (c : Bool) : Proceeds (if c then .skip else .advance) := by
  cases c <;> simp [Proceeds]

theorem proceeds_jump {a : Word} (h : a.toNat ≤ 0x10FE) : Proceeds (.jump a) := by
  refine ⟨by simp, fun b hb => ?_⟩
  cases hb; exact h

/-! ### The ways an instruction ends -/

/-- An instruction that writes registers, timers, the framebuffer or the draw counter, or moves PC alone. -/
theorem Effect.of_keepsControl (hchanges : OnlyChanges (writesOf i s) s (body.retire n)) (hkeeps : KeepsControl s body)
    (hn : Proceeds n) : Effect i s body n := by
  obtain ⟨hparams, hmem, hpc, hstack, hdiags⟩ := hkeeps
  obtain ⟨hsuspend, htarget⟩ := hn
  exact ⟨hchanges, by rw [hparams, hmem]; exact id, hpc, fun k => .inl (by rw [hstack]), fun a h => .inl (htarget a h),
    fun h => absurd h hsuspend, .inl hdiags⟩

theorem Effect.move (hn : Proceeds n) : Effect i s s n :=
  .of_keepsControl (State.retire_changes s n _) ⟨rfl, rfl, rfl, rfl, rfl⟩ hn

theorem Effect.result {x : Nibble} (r : Byte) (hwrites : writesOf i s = [.reg x]) :
    Effect i s (s.setV x r) .advance :=
  .of_keepsControl (hwrites ▸ State.finishV_changes s x r) ⟨rfl, rfl, rfl, rfl, rfl⟩ proceeds_advance

theorem Effect.resultAndFlag {x : Nibble} (r : Byte) (f : Bool) (hwrites : writesOf i s = [.reg x, .reg 0xF#4]) :
    Effect i s (s.setRF x r f) .advance := by
  refine .of_keepsControl (hwrites ▸ State.finishRF_changes s x r f) ?_ proceeds_advance
  obtain ⟨v, hv⟩ := State.setRF_only s x r f
  rw [hv]; exact ⟨rfl, rfl, rfl, rfl, rfl⟩

theorem Effect.index (w : Word) (hwrites : writesOf i s = [.index]) : Effect i s (s.setI w) .advance :=
  .of_keepsControl (hwrites ▸ State.finishI_changes s w) ⟨rfl, rfl, rfl, rfl, rfl⟩ proceeds_advance

/-- An instruction that stores bytes. -/
theorem Effect.store (hchanges : OnlyChanges (writesOf i s) s (body.retire .advance))
    (hbody : ∃ m, body = { s with mem := m })
    (hwf : Memory.wf s.params s.mem → Memory.wf body.params body.mem) : Effect i s body .advance := by
  obtain ⟨m, rfl⟩ := hbody
  exact ⟨hchanges, hwf, rfl, fun _ => .inl rfl, by simp, by simp, .inl rfl⟩

/-- An instruction that takes its diagnostic (R212). -/
theorem Effect.diagnostic {d : Diagnostic} (hraises : Raises s i d) (hwrites : writesOf i s = [.diags]) :
    Effect i s (s.raise d) .advance :=
  ⟨hwrites ▸ State.recover_changes s d .advance, id, rfl, fun _ => .inl rfl, by simp, by simp,
    .inr ⟨d, hraises, rfl⟩⟩

theorem Effect.push {nnn : Addr} {k : Fin 16} (hsp : s.sp.val = k.val) :
    Effect (.call nnn) s (s.pushed k (s.pc + 2#16)) (.jump (addrOperand nnn)) := by
  have hwrites : writesOf (.call nnn) s = [.stackEntry k.val, .sp] := by
    rw [writesOf, hsp, if_neg (by omega)]
  obtain ⟨-, htarget⟩ : Proceeds (.jump (addrOperand nnn)) := proceeds_jump (by rw [addrOperand_toNat]; omega)
  refine ⟨hwrites ▸ State.pushed_changes s k _ _, id, rfl, fun j => ?_, fun a h => .inl (htarget a h),
    by simp, .inl rfl⟩
  rw [State.pushed_stack]
  split
  · exact .inr rfl
  · exact .inl rfl

theorem Effect.pop {k : Fin 16} (hsp : s.sp.val = k.val + 1) :
    Effect .ret s (s.popped k) (.jump s.stack[k]) := by
  have hwrites : writesOf .ret s = [.sp] := by rw [writesOf, if_neg (by omega)]
  refine ⟨hwrites ▸ State.popped_changes s k _, id, rfl, fun _ => .inl rfl, fun a h => ?_, by simp, .inl rfl⟩
  cases h; exact .inr ⟨k, rfl⟩

theorem Effect.suspend {x : Nibble} (hup : ∀ k, s.keyDown k = false) : Effect (.ldVxK x) s s .suspend :=
  ⟨State.retire_changes s _ _, id, rfl, fun _ => .inl rfl, by simp, fun _ => ⟨⟨x, rfl⟩, hup⟩, .inl rfl⟩

/-- What `exec` answers: a next state, of which `Effect` holds. -/
def HasEffect (i : Instr) (s : State) : Prop := ∃ body n, exec i s = .next (body.retire n) ∧ Effect i s body n

/-- An instruction that makes the range check has its effect, or it takes the range diagnostic (R56, R166). -/
theorem HasEffect.of_check {c : Nat} {writes : List Part} (hexec : exec i s = .next (s.checkData c body))
    (hi : ∃ x, i = .ldB x ∨ i = .storeRegs x ∨ i = .loadRegs x ∨ ∃ y n, i = .drw x y n)
    (hwrites : writesOf i s = if s.inRange c then writes else [.diags])
    (heffect : writesOf i s = writes → Effect i s body .advance) : HasEffect i s := by
  by_cases hmay : MayAccess s c
  · refine ⟨body, .advance, exec_of_check s hexec hmay, heffect ?_⟩
    rw [hwrites, if_pos ((State.inRange_iff_mayAccess s c).2 hmay)]
  · have hskip : s.params.dataOob = .skip := by
      cases h : s.params.dataOob with
      | skip => rfl
      | wrap => exact absurd (.inl h) hmay
    rw [if_neg (mt (State.inRange_iff_mayAccess s c).1 hmay)] at hwrites
    rw [State.checkData_of_not_mayAccess s hmay] at hexec
    exact ⟨_, .advance, hexec, .diagnostic (.outOfRange hi hskip) hwrites⟩

/-! ### Instruction by instruction -/

theorem hasEffect_ret (s : State) : HasEffect .ret s := by
  rcases Nat.eq_zero_or_pos s.sp.val with hempty | hpos
  · exact ⟨_, .advance, execRet_of_empty s hempty, .diagnostic (.underflow hempty) (if_pos hempty)⟩
  · have hsp : s.sp.val = (⟨s.sp.val - 1, by omega⟩ : Fin 16).val + 1 := (Nat.sub_add_cancel hpos).symm
    exact ⟨_, _, exec_ret_of_succ s hsp, .pop hsp⟩

theorem hasEffect_call (nnn : Addr) (s : State) : HasEffect (.call nnn) s := by
  by_cases hfull : s.sp.val = 16
  · exact ⟨_, .advance, execCall_of_full s nnn hfull, .diagnostic (.overflow nnn hfull) (if_pos hfull)⟩
  · have hsp : s.sp.val = (⟨s.sp.val, by omega⟩ : Fin 16).val := rfl
    exact ⟨_, _, exec_call_of_eq s nnn hsp, .push hsp⟩

theorem hasEffect_ldVxK (x : Nibble) (s : State) : HasEffect (.ldVxK x) s := by
  cases hscan : s.lowestKeyDown with
  | none => exact ⟨s, .suspend, exec_ldVxK_of_none s x hscan, .suspend ((State.lowestKeyDown_none s).1 hscan)⟩
  | some k =>
    have hdown : ¬s.key = Vector.replicate 16 false := by
      rw [State.key_eq_up, ← State.lowestKeyDown_none, hscan]; exact Option.some_ne_none k
    exact ⟨_, .advance, exec_ldVxK_of_some s x hscan, .result _ (if_neg hdown)⟩

theorem hasEffect_drw (x y n : Nibble) (s : State) : HasEffect (.drw x y n) s :=
  .of_check (exec_drw s x y n) ⟨x, .inr (.inr (.inr ⟨y, n, rfl⟩))⟩ rfl fun hwrites =>
    .of_keepsControl (hwrites ▸ State.drawn_changes s _ _) ⟨rfl, rfl, rfl, rfl, rfl⟩ proceeds_advance

theorem hasEffect_ldB (x : Nibble) (s : State) : HasEffect (.ldB x) s :=
  .of_check (exec_ldB s x) ⟨x, .inl rfl⟩ rfl fun hwrites =>
    .store (hwrites ▸ State.storeDigits_changes s _ _) (State.storeDigits_only s _) (State.storeDigits_wf s _)

theorem hasEffect_storeRegs (x : Nibble) (s : State) : HasEffect (.storeRegs x) s :=
  .of_check (exec_storeRegs s x) ⟨x, .inr (.inl rfl)⟩ rfl fun hwrites =>
    .store (hwrites ▸ State.storeBlock_changes s _ _) (State.storeBlock_only s _) (State.storeBlock_wf s _)

theorem hasEffect_loadRegs (x : Nibble) (s : State) : HasEffect (.loadRegs x) s := by
  refine .of_check (exec_loadRegs s x) ⟨x, .inr (.inr (.inl rfl))⟩ rfl fun hwrites =>
    .of_keepsControl (hwrites ▸ State.loadBlock_changes s (Nat.succ_le_of_lt x.isLt) _) ?_ proceeds_advance
  obtain ⟨v, hv⟩ := State.loadBlock_only s (x.toNat + 1)
  rw [hv]; exact ⟨rfl, rfl, rfl, rfl, rfl⟩

theorem exec_effect (i : Instr) (s : State) : HasEffect i s := by
  cases i with
  | cls =>
    exact ⟨_, .advance, exec_cls s, .of_keepsControl (State.showFrame_changes s _ _) ⟨rfl, rfl, rfl, rfl, rfl⟩
      proceeds_advance⟩
  | ret => exact hasEffect_ret s
  | call nnn => exact hasEffect_call nnn s
  | sys => exact ⟨s, .advance, rfl, .move proceeds_advance⟩
  | jp nnn => exact ⟨s, _, rfl, .move (proceeds_jump (by rw [addrOperand_toNat]; omega))⟩
  | jpV0 nnn => exact ⟨s, _, rfl, .move (proceeds_jump (by rw [addrOperand_add_byteOperand_toNat]; omega))⟩
  | seByte | sneByte | seReg | sneReg | skp => exact ⟨s, _, rfl, .move (proceeds_skip_or_advance _)⟩
  | sknp x => exact ⟨s, _, exec_sknp s x, .move (proceeds_skip_or_advance _)⟩
  | ldByte | addByte | ldReg | orReg | andReg | xorReg | ldVxDt => exact ⟨_, .advance, rfl, .result _ rfl⟩
  | addReg | subReg | shr | subnReg | shl => exact ⟨_, .advance, rfl, .resultAndFlag _ _ rfl⟩
  | ldI | addI | ldF => exact ⟨_, .advance, rfl, .index _ rfl⟩
  | rnd x kk =>
    exact ⟨_, .advance, rfl, .of_keepsControl (State.randomResult_changes s x kk _) ⟨rfl, rfl, rfl, rfl, rfl⟩
      proceeds_advance⟩
  | ldDtVx =>
    exact ⟨_, .advance, rfl, .of_keepsControl (State.setDt_changes s _ _) ⟨rfl, rfl, rfl, rfl, rfl⟩ proceeds_advance⟩
  | ldStVx =>
    exact ⟨_, .advance, rfl, .of_keepsControl (State.setSt_changes s _ _) ⟨rfl, rfl, rfl, rfl, rfl⟩ proceeds_advance⟩
  | ldVxK x => exact hasEffect_ldVxK x s
  | drw x y n => exact hasEffect_drw x y n s
  | ldB x => exact hasEffect_ldB x s
  | storeRegs x => exact hasEffect_storeRegs x s
  | loadRegs x => exact hasEffect_loadRegs x s

/-- The inversion of `exec`: the state it answers is an effect and a move of PC. -/
theorem exec_cases {t : State} (h : exec i s = .next t) : ∃ body n, t = body.retire n ∧ Effect i s body n := by
  obtain ⟨body, n, hexec, heffect⟩ := exec_effect i s
  exact ⟨body, n, Host.Outcome.next.inj (h.symm.trans hexec), heffect⟩

end Sys2Proof.Machine
end

section
/-! SUPPORT. The three cases of a step (40_step_cycle.md R100), and what follows from them by `Effect`: the diagnostics,
the frame, the invariant and the result of a step, and the invariant along every run. -/

namespace Sys2Proof.Machine

variable {i : Instr} {s t : State}

/-! ### The cases of a step -/

theorem step_of_pc_gt (hpc : 0xFFE < s.pc.toNat) : step s = .next s.recoverPc := by
  rw [step, if_neg (mt State.fetchable_iff.1 hpc.not_ge)]

/-- The inversion of `step`: the PC bound, an unknown word, an instruction, in the order of R214. -/
theorem step_cases (h : step s = .next t) :
    (0xFFE < s.pc.toNat ∧ t = s.recoverPc) ∨
    (s.pc.toNat ≤ 0xFFE ∧ decode s.fetchWord = .error (.unknownOpcode s.fetchWord) ∧
      t = s.recoverUnknown s.fetchWord) ∨
    (s.pc.toNat ≤ 0xFFE ∧ ∃ i, decode s.fetchWord = .ok i ∧ exec i s = .next t) := by
  rcases Nat.lt_or_ge 0xFFE s.pc.toNat with hpc | hpc
  · exact .inl ⟨hpc, (Host.Outcome.next.inj ((step_of_pc_gt hpc).symm.trans h)).symm⟩
  · cases hdecode : decode s.fetchWord with
    | ok i => exact .inr (.inr ⟨hpc, i, rfl, (step_of_ok hpc hdecode).symm.trans h⟩)
    | error r =>
      refine .inr (.inl ⟨hpc, by rw [decode_error hdecode], ?_⟩)
      exact (Host.Outcome.next.inj ((step_of_error hpc hdecode).symm.trans h)).symm

/-- Settles O8: the step takes the diagnostic and its recovery, which changes the log alone. -/
theorem stepRecoversAnOutOfBoundsPc : Obligations.StepRecoversAnOutOfBoundsPc :=
  fun s hpc => ⟨s.recoverPc, step_of_pc_gt hpc, rfl, rfl, rfl, State.recover_changes s _ _⟩

/-- Settles O9: each case of a step, `exec` included, answers a next state. -/
theorem stepNeverStops : Obligations.StepNeverStops := by
  intro s
  rcases Nat.lt_or_ge 0xFFE s.pc.toNat with hpc | hpc
  · exact ⟨_, step_of_pc_gt hpc⟩
  · cases hdecode : decode s.fetchWord with
    | ok i =>
      obtain ⟨body, n, hexec, -⟩ := exec_effect i s
      exact ⟨_, (step_of_ok hpc hdecode).trans hexec⟩
    | error r => exact ⟨_, step_of_error hpc hdecode⟩

/-! ### The diagnostics and the frame of a step -/

/-- Settles O10: the log by the cases of the step, and for an instruction by the cases of `Raises`. -/
theorem stepRaisesAtMostOneDiagnostic : Obligations.StepRaisesAtMostOneDiagnostic := by
  intro s t h
  rcases step_cases h with ⟨hpc, rfl⟩ | ⟨hpc, hdecode, rfl⟩ | ⟨hpc, i, hdecode, hexec⟩
  · exact .inl ⟨hpc, rfl⟩
  · exact .inr (.inl ⟨hpc, hdecode, rfl⟩)
  · refine .inr (.inr ⟨hpc, i, hdecode, ?_⟩)
    obtain ⟨body, n, rfl, heffect⟩ := exec_cases hexec
    rw [State.retire_diags]
    rcases heffect.log with hsame | ⟨d, hraises, hlog⟩
    · exact .inl hsame
    · cases hraises with
      | underflow hempty => exact .inr (.inl ⟨rfl, hempty, hlog⟩)
      | overflow nnn hfull => exact .inr (.inr (.inl ⟨⟨nnn, rfl⟩, hfull, hlog⟩))
      | outOfRange hi hskip => exact .inr (.inr (.inr ⟨hi, hskip, hlog⟩))

/-- Settles O11: a recovery changes the log alone, an instruction what `Effect.changes` says. -/
theorem stepChangesOnlyWhatItsInstructionWrites : Obligations.StepChangesOnlyWhatItsInstructionWrites := by
  intro s t h
  rw [stepWrites]
  rcases step_cases h with ⟨hpc, rfl⟩ | ⟨hpc, hdecode, rfl⟩ | ⟨hpc, i, hdecode, hexec⟩
  · rw [if_neg hpc.not_ge]; exact State.recover_changes s _ _
  · rw [if_pos hpc, hdecode]; exact State.recover_changes s _ _
  · obtain ⟨body, n, rfl, heffect⟩ := exec_cases hexec
    rw [if_pos hpc, hdecode]; exact heffect.changes

/-! ### The invariant -/

theorem word_add_toNat_le (pc : Word) (k : Nat) : (pc + BitVec.ofNat 16 k).toNat ≤ pc.toNat + k := by
  rw [BitVec.toNat_add, BitVec.toNat_ofNat]; omega

/-- Taking a diagnostic leaves memory and the stack, so it keeps the invariant where PC stays in its bound. -/
theorem State.recover_inv (h : s.Inv) (d : Diagnostic) {n : Next} (hpc : (n.pcFrom s.pc).toNat ≤ 0x10FE) :
    (s.recover d n).Inv := by
  obtain ⟨hmem, -, hstack⟩ := h
  exact ⟨hmem, hpc, hstack⟩

/-- An instruction at a PC a fetch may start at keeps the invariant. -/
theorem Effect.inv {body : State} {n : Next} (heffect : Effect i s body n) (hpc : s.pc.toNat ≤ 0xFFE) (h : s.Inv) :
    (body.retire n).Inv := by
  obtain ⟨hmem, -, hstack⟩ := h
  refine ⟨heffect.wf hmem, ?_, fun k => ?_⟩
  · rw [State.retire_pc, heffect.pc]
    have := word_add_toNat_le s.pc
    cases n with
    | advance => exact (this 2).trans (by omega)
    | skip => exact (this 4).trans (by omega)
    | suspend => exact hpc.trans (by decide)
    | jump a =>
      rcases heffect.target a rfl with hbound | ⟨k, rfl⟩
      · exact hbound
      · exact (hstack k).trans (by decide)
  · rw [State.retire_stack]
    rcases heffect.stack k with hkept | hpushed
    · rw [hkept]; exact hstack k
    · rw [hpushed]; exact (word_add_toNat_le s.pc 2).trans (by omega)

/-- Settles O12: `State.recover_inv` and `Effect.inv`. -/
theorem everyStepKeepsTheInvariant : Obligations.EveryStepKeepsTheInvariant := by
  intro s t hinv h
  rcases step_cases h with ⟨-, rfl⟩ | ⟨hpc, -, rfl⟩ | ⟨hpc, i, -, hexec⟩
  · exact State.recover_inv hinv _ (show Config.programBase.toNat ≤ 0x10FE by decide)
  · exact State.recover_inv hinv _ ((word_add_toNat_le s.pc 2).trans (by omega))
  · obtain ⟨body, n, rfl, heffect⟩ := exec_cases hexec
    exact heffect.inv hpc hinv

theorem State.resetOp_inv (s : State) : s.resetOp.Inv :=
  ⟨Memory.wf_nil _, show (0x200#16).toNat ≤ 0x10FE by decide, fun k => by rw [State.stack_resetOp]; decide⟩

/-- Settles O13: `State.reset` is what the reset operation makes of it. -/
theorem resetMeetsTheInvariant : Obligations.ResetMeetsTheInvariant := State.resetOp_inv State.reset

theorem State.tickTimers_inv (h : s.Inv) (ms : Nat) : (s.tickTimers ms).Inv := by
  rw [State.tickTimers_eq]; exact h

theorem State.loadProgram_inv (h : s.Inv) (bytes : List Byte) : (s.loadProgram bytes).Inv := by
  rcases Nat.lt_or_ge 3584 bytes.length with hover | hfits
  · rw [State.loadProgram_of_capacity_lt s hover]; exact h
  · obtain ⟨m, hload, hwf, -⟩ := State.loadProgram_of_le s hfits
    obtain ⟨-, hpc, hstack⟩ := State.resetOp_inv s
    rw [hload]; exact ⟨hwf, hpc, hstack⟩

theorem State.operate_step_of_step (h : step s = .next t) :
    s.operate .step = .next (t, .stepped (stepResult s t)) := by
  rw [State.operate, h, stepped]

/-- Every operation and host event keeps the invariant. -/
theorem State.operate_inv {op : Op} {r : OpResult} (hinv : s.Inv) (h : s.operate op = .next (t, r)) : t.Inv := by
  cases op with
  | step =>
    obtain ⟨u, hu⟩ := stepNeverStops s
    cases (State.operate_step_of_step hu).symm.trans h
    exact everyStepKeepsTheInvariant s t hinv hu
  | reset => cases h; exact State.resetOp_inv s
  | loadProgram bytes => cases h; exact State.loadProgram_inv hinv bytes
  | tickTimers ms => cases h; exact State.tickTimers_inv hinv ms
  | writeKey => cases h; exact hinv
  | ackRedraw => cases h; exact hinv

/-- Settles O14, by induction on the list of operations. -/
theorem everyRunKeepsTheInvariant : Obligations.EveryRunKeepsTheInvariant := by
  intro ops
  induction ops with
  | nil => intro s t hinv h; cases h; exact hinv
  | cons op rest ih =>
    intro s t hinv h
    rw [State.run] at h
    split at h
    next u r hop => exact ih u t (State.operate_inv hinv hop) h
    next => cases h
    next => cases h

/-! ### The result of a step -/

/-- Settles O15: only `.suspend` sets the flag, and FX0A suspends exactly with no key down. -/
theorem awaitingKeyIsSetOnlyByTheKeyWait : Obligations.AwaitingKeyIsSetOnlyByTheKeyWait := by
  intro i s t h
  constructor
  · intro hawait
    obtain ⟨body, n, rfl, heffect⟩ := exec_cases h
    exact heffect.suspends (beq_iff_eq.1 hawait)
  · rintro ⟨⟨x, rfl⟩, hup⟩
    cases (keyWaitSuspendsWithNoKey x s hup).symm.trans h
    rfl

/-- R33: `awaitingKey` after a step, whichever case of the step it was. -/
theorem step_awaitingKey_iff (h : step s = .next t) :
    t.awaitingKey = true ↔
      s.pc.toNat ≤ 0xFFE ∧ (∃ x, decode s.fetchWord = .ok (.ldVxK x)) ∧ ∀ k, s.keyDown k = false := by
  rcases step_cases h with ⟨hpc, rfl⟩ | ⟨-, hdecode, rfl⟩ | ⟨hpc, i, hdecode, hexec⟩
  · simp [State.recoverPc, hpc.not_ge]
  · simp [State.recoverUnknown, hdecode]
  · rw [awaitingKeyIsSetOnlyByTheKeyWait i s t hexec]
    simp [hpc, hdecode]

/-- A step appends at most one record to the log (R213). -/
theorem step_log (h : step s = .next t) : t.diags = s.diags ∨ ∃ d, t.diags = s.diags ++ [d] := by
  rcases step_cases h with ⟨-, rfl⟩ | ⟨-, -, rfl⟩ | ⟨-, i, -, hexec⟩
  · exact .inr ⟨_, rfl⟩
  · exact .inr ⟨_, rfl⟩
  · obtain ⟨body, n, rfl, heffect⟩ := exec_cases hexec
    exact heffect.log.imp id fun ⟨d, _, hlog⟩ => ⟨d, hlog⟩

/-- A step that suspends records nothing: FX0A takes no diagnostic. -/
theorem step_log_of_awaitingKey (h : step s = .next t) (hawait : t.awaitingKey = true) : t.diags = s.diags := by
  obtain ⟨hpc, ⟨x, hdecode⟩, hup⟩ := (step_awaitingKey_iff h).1 hawait
  cases ((step_of_ok hpc hdecode).trans (keyWaitSuspendsWithNoKey x s hup)).symm.trans h
  rfl

theorem stepResult_suspended_iff : stepResult s t = .suspended ↔ t.awaitingKey = true := by
  rw [stepResult]
  split
  · simp [*]
  · split <;> simp [*]

theorem stepResult_recovered_iff (hlog : t.diags = s.diags ∨ ∃ d, t.diags = s.diags ++ [d])
    (hawait : t.awaitingKey = true → t.diags = s.diags) : stepResult s t = .recovered ↔ t.diags ≠ s.diags := by
  rw [stepResult]
  by_cases hkey : t.awaitingKey = true
  · simp [hkey, hawait hkey]
  · rcases hlog with hsame | ⟨d, happended⟩
    · simp [hkey, hsame]
    · simp [hkey, happended]

/-- Settles O16: the flag, the log and the result of a step. -/
theorem stepResultSaysWhatHappened : Obligations.StepResultSaysWhatHappened :=
  fun _ _ h => ⟨step_awaitingKey_iff h, stepResult_suspended_iff,
    stepResult_recovered_iff (step_log h) (step_log_of_awaitingKey h), State.operate_step_of_step h⟩

end Sys2Proof.Machine
end
